-- ==== Sys2Proof/Word.lean ====
section
/-! DEFINITION. The two bit-vector widths the unit's interface and storage are made of:
a byte (key entries, message and result characters, file 10_state.md R20) and a 32-bit word
(commands, response data, `A`, `MOD`: 00_scope.md R5, `CMDW` and `XLEN`). -/

namespace Sys2Proof

/-- One byte: `KW` = 8 (R5), and one buffer cell (R50). -/
abbrev Byte := BitVec 8

/-- One 32-bit pattern: `CMDW` = `XLEN` = 32 (R5). Bit 0 is the least significant (R55, R70). -/
abbrev Word := BitVec 32

end Sys2Proof
end

