-- ==== Sys2Proof/Syntax.lean ====
section
/-! DEFINITION. The 26 commands of the unit, one constructor per row of spec/opcode_table.json
(30_encoding.md R77), with the operands of R82 as bit vectors of the widths their fields have. -/

namespace Sys2Proof

/-- A command and its operands. The row and column indices are the raw 2-bit fields: the value 3 is
illegal (R73, R79) and `WellFormed` refuses it. -/
inductive Instr where
  /-- R100 -/
  | nop
  /-- R101: declare the dimensions of the key matrix. -/
  | setdim (rows cols : BitVec 4)
  /-- R102: load one key matrix entry. -/
  | ldk (r c : BitVec 2) (imm8 : BitVec 8)
  /-- R103: load the scalar operand (signed immediate). -/
  | lda (simm24 : BitVec 24)
  /-- R104: load the modulus operand (unsigned immediate). -/
  | ldm (uimm16 : BitVec 16)
  /-- R105: store one byte into the message buffer. -/
  | ldb (addr : BitVec 16) (imm8 : BitVec 8)
  /-- R106: set the message length. -/
  | setlen (uimm16 : BitVec 16)
  /-- R107 -/
  | rddim
  /-- R108 -/
  | rdk (r c : BitVec 2)
  /-- R109 -/
  | rda
  /-- R110 -/
  | rdm
  /-- R111 -/
  | rdadj (r c : BitVec 2)
  /-- R112 -/
  | rdinv (r c : BitVec 2)
  /-- R113 -/
  | rdlen
  /-- R114 -/
  | rdolen
  /-- R115 -/
  | rdb (addr : BitVec 16)
  /-- R116 -/
  | rdo (addr : BitVec 16)
  /-- R134: validate the key. -/
  | valk
  /-- R135: determinant of the key. -/
  | det
  /-- R137: invertibility of the key modulo 26. -/
  | chkinv
  /-- R153: greatest common divisor of `A` and `MOD`. -/
  | gcd
  /-- R154: modular inverse of `A` modulo `MOD`. -/
  | modinv
  /-- R172: adjugate of the key. -/
  | adj
  /-- R174: inverse of the key. -/
  | kinv
  /-- R196: encrypt the message. -/
  | enc
  /-- R197: decrypt the message. -/
  | dec
deriving DecidableEq, Repr

/-- The mnemonic of R77. -/
def Instr.mnemonic : Instr → String
  | .nop => "NOP"
  | .setdim _ _ => "SETDIM"
  | .ldk _ _ _ => "LDK"
  | .lda _ => "LDA"
  | .ldm _ => "LDM"
  | .ldb _ _ => "LDB"
  | .setlen _ => "SETLEN"
  | .rddim => "RDDIM"
  | .rdk _ _ => "RDK"
  | .rda => "RDA"
  | .rdm => "RDM"
  | .rdadj _ _ => "RDADJ"
  | .rdinv _ _ => "RDINV"
  | .rdlen => "RDLEN"
  | .rdolen => "RDOLEN"
  | .rdb _ => "RDB"
  | .rdo _ => "RDO"
  | .valk => "VALK"
  | .det => "DET"
  | .chkinv => "CHKINV"
  | .gcd => "GCD"
  | .modinv => "MODINV"
  | .adj => "ADJ"
  | .kinv => "KINV"
  | .enc => "ENC"
  | .dec => "DEC"

end Sys2Proof
end

