-- ==== Sys2Proof/WellFormed.lean ====
section
/-! DEFINITION. Which instruction terms the unit has: every operand value is legal but a row or
column index of 3 (30_encoding.md R73, R74, R79, R82). -/

namespace Sys2Proof

/-- A 2-bit row or column index names a row or column of the 3 × 3 arrays (R82: "0 … 2 legal, 3 illegal"). -/
def indexLegal (i : BitVec 2) : Bool := i != 3

/-- The operands are ones the command has (R79 (b)). -/
def WellFormed : Instr → Bool
  | .ldk r c _ => indexLegal r && indexLegal c
  | .rdk r c => indexLegal r && indexLegal c
  | .rdadj r c => indexLegal r && indexLegal c
  | .rdinv r c => indexLegal r && indexLegal c
  | .nop => true
  | .setdim _ _ => true
  | .lda _ => true
  | .ldm _ => true
  | .ldb _ _ => true
  | .setlen _ => true
  | .rddim => true
  | .rda => true
  | .rdm => true
  | .rdlen => true
  | .rdolen => true
  | .rdb _ => true
  | .rdo _ => true
  | .valk => true
  | .det => true
  | .chkinv => true
  | .gcd => true
  | .modinv => true
  | .adj => true
  | .kinv => true
  | .enc => true
  | .dec => true

end Sys2Proof
end

