-- ==== Sys2Proof/Decode.lean ====
section
/-! DEFINITION. From a 32-bit command word to an instruction or a named rejection (30_encoding.md
R70 to R79, R82, R85), and back (`encode`, from the same tables); the opcode map with its `match`
and `mask` columns (R77); and the byte order of a command word on a byte-wide channel
(20_memory.md R55). -/

namespace Sys2Proof

/-! ## Fields (R70 to R76, R82) -/

/-- `cmd[31:24]` -/
def opField (w : Word) : BitVec 8 := w.extractLsb' 24 8
/-- `cmd[3:0]` -/
def rowsField (w : Word) : BitVec 4 := w.extractLsb' 0 4
/-- `cmd[7:4]` -/
def colsField (w : Word) : BitVec 4 := w.extractLsb' 4 4
/-- `cmd[11:10]` -/
def rField (w : Word) : BitVec 2 := w.extractLsb' 10 2
/-- `cmd[9:8]` -/
def cField (w : Word) : BitVec 2 := w.extractLsb' 8 2
/-- `cmd[7:0]` -/
def imm8Field (w : Word) : BitVec 8 := w.extractLsb' 0 8
/-- `cmd[23:0]` -/
def simm24Field (w : Word) : BitVec 24 := w.extractLsb' 0 24
/-- `cmd[15:0]` -/
def uimm16Field (w : Word) : BitVec 16 := w.extractLsb' 0 16
/-- `cmd[23:8]` -/
def addrField (w : Word) : BitVec 16 := w.extractLsb' 8 16

/-! ## Decoding (R85) -/

/-- Why a word spells no command. All three are answered with `IllegalCommand` (R78, R79). -/
inductive Reject where
  /-- the opcode is not in the opcode map (R78, R85 step 1) -/
  | illegalOpcode
  /-- a bit the format marks `0` is 1 (R79 (a), R85 step 2) -/
  | reservedBit
  /-- format E or ER with `r = 3` or `c = 3` (R79 (b), R85 step 3) -/
  | illegalIndex
deriving DecidableEq, Repr

/-- Format N (R71): bits 23:0 reserved. -/
def decodeN (i : Instr) (w : Word) : Except Reject Instr :=
  if w.extractLsb' 0 24 ≠ 0 then .error .reservedBit else .ok i

/-- Format D (R72): bits 23:8 reserved. -/
def decodeD (mk : BitVec 4 → BitVec 4 → Instr) (w : Word) : Except Reject Instr :=
  if w.extractLsb' 8 16 ≠ 0 then .error .reservedBit else .ok (mk (rowsField w) (colsField w))

/-- Format E (R73): bits 23:12 reserved, `r` and `c` not 3. -/
def decodeE (mk : BitVec 2 → BitVec 2 → BitVec 8 → Instr) (w : Word) : Except Reject Instr :=
  if w.extractLsb' 12 12 ≠ 0 then .error .reservedBit
  else if !indexLegal (rField w) || !indexLegal (cField w) then .error .illegalIndex
  else .ok (mk (rField w) (cField w) (imm8Field w))

/-- Format ER (R74): bits 23:12 and 7:0 reserved, `r` and `c` not 3. -/
def decodeER (mk : BitVec 2 → BitVec 2 → Instr) (w : Word) : Except Reject Instr :=
  if w.extractLsb' 12 12 ≠ 0 ∨ w.extractLsb' 0 8 ≠ 0 then .error .reservedBit
  else if !indexLegal (rField w) || !indexLegal (cField w) then .error .illegalIndex
  else .ok (mk (rField w) (cField w))

/-- Format I24 (R75): no reserved bit. -/
def decodeI24 (mk : BitVec 24 → Instr) (w : Word) : Except Reject Instr :=
  .ok (mk (simm24Field w))

/-- Format I16 (R75): bits 23:16 reserved. -/
def decodeI16 (mk : BitVec 16 → Instr) (w : Word) : Except Reject Instr :=
  if w.extractLsb' 16 8 ≠ 0 then .error .reservedBit else .ok (mk (uimm16Field w))

/-- Format B (R76): no reserved bit. -/
def decodeB (mk : BitVec 16 → BitVec 8 → Instr) (w : Word) : Except Reject Instr :=
  .ok (mk (addrField w) (imm8Field w))

/-- Format BR (R76): bits 7:0 reserved. -/
def decodeBR (mk : BitVec 16 → Instr) (w : Word) : Except Reject Instr :=
  if w.extractLsb' 0 8 ≠ 0 then .error .reservedBit else .ok (mk (addrField w))

/-- The decoder, total on 32-bit words (R85): opcode first (R77, R78), then what the format checks. -/
def decode (w : Word) : Except Reject Instr :=
  match (opField w).toNat with
  | 0x00 => decodeN .nop w
  | 0x01 => decodeD .setdim w
  | 0x02 => decodeE .ldk w
  | 0x03 => decodeI24 .lda w
  | 0x04 => decodeI16 .ldm w
  | 0x05 => decodeB .ldb w
  | 0x06 => decodeI16 .setlen w
  | 0x10 => decodeN .rddim w
  | 0x11 => decodeER .rdk w
  | 0x12 => decodeN .rda w
  | 0x13 => decodeN .rdm w
  | 0x14 => decodeER .rdadj w
  | 0x15 => decodeER .rdinv w
  | 0x16 => decodeN .rdlen w
  | 0x17 => decodeN .rdolen w
  | 0x18 => decodeBR .rdb w
  | 0x19 => decodeBR .rdo w
  | 0x20 => decodeN .valk w
  | 0x21 => decodeN .det w
  | 0x22 => decodeN .chkinv w
  | 0x23 => decodeN .gcd w
  | 0x24 => decodeN .modinv w
  | 0x25 => decodeN .adj w
  | 0x26 => decodeN .kinv w
  | 0x27 => decodeN .enc w
  | 0x28 => decodeN .dec w
  | _ => .error .illegalOpcode

/-- The word of a row of spec/opcode_table.json: its `nbits` low bits are `w`, the bits above are 0. -/
def tableWord (nbits w : Nat) : Word := BitVec.ofNat 32 (w % 2 ^ nbits)

/-- What the decoder reads from a word numbered as spec/opcode_table.json numbers it. -/
def decodeTableWord (nbits w : Nat) : Option Instr := (decode (tableWord nbits w)).toOption

/-! ## Encoding (R70 to R77): the opcode, then the fields from the most significant down -/

/-- Format N (R71). -/
def encodeN (op : BitVec 8) : Word := op ++ (0 : BitVec 24)
/-- Format D (R72). -/
def encodeD (op : BitVec 8) (rows cols : BitVec 4) : Word := op ++ (0 : BitVec 16) ++ cols ++ rows
/-- Format E (R73). -/
def encodeE (op : BitVec 8) (r c : BitVec 2) (imm8 : BitVec 8) : Word :=
  op ++ (0 : BitVec 12) ++ r ++ c ++ imm8
/-- Format ER (R74): format E with bits 7:0 zero. -/
def encodeER (op : BitVec 8) (r c : BitVec 2) : Word := encodeE op r c 0
/-- Format I24 (R75). -/
def encodeI24 (op : BitVec 8) (simm24 : BitVec 24) : Word := op ++ simm24
/-- Format I16 (R75). -/
def encodeI16 (op : BitVec 8) (uimm16 : BitVec 16) : Word := op ++ (0 : BitVec 8) ++ uimm16
/-- Format B (R76). -/
def encodeB (op : BitVec 8) (addr : BitVec 16) (imm8 : BitVec 8) : Word := op ++ addr ++ imm8
/-- Format BR (R76): format B with bits 7:0 zero. -/
def encodeBR (op : BitVec 8) (addr : BitVec 16) : Word := encodeB op addr 0

/-- The word that spells a command (R77). -/
def encode : Instr → Word
  | .nop => encodeN 0x00
  | .setdim rows cols => encodeD 0x01 rows cols
  | .ldk r c imm8 => encodeE 0x02 r c imm8
  | .lda simm24 => encodeI24 0x03 simm24
  | .ldm uimm16 => encodeI16 0x04 uimm16
  | .ldb addr imm8 => encodeB 0x05 addr imm8
  | .setlen uimm16 => encodeI16 0x06 uimm16
  | .rddim => encodeN 0x10
  | .rdk r c => encodeER 0x11 r c
  | .rda => encodeN 0x12
  | .rdm => encodeN 0x13
  | .rdadj r c => encodeER 0x14 r c
  | .rdinv r c => encodeER 0x15 r c
  | .rdlen => encodeN 0x16
  | .rdolen => encodeN 0x17
  | .rdb addr => encodeBR 0x18 addr
  | .rdo addr => encodeBR 0x19 addr
  | .valk => encodeN 0x20
  | .det => encodeN 0x21
  | .chkinv => encodeN 0x22
  | .gcd => encodeN 0x23
  | .modinv => encodeN 0x24
  | .adj => encodeN 0x25
  | .kinv => encodeN 0x26
  | .enc => encodeN 0x27
  | .dec => encodeN 0x28

/-! ## The opcode map as the spec prints it (R77) -/

/-- One row of R77: the mnemonic, its `match` and `mask` columns, and whether its format is E or ER
(so that `r` and `c` must not be 3). -/
structure OpRow where
  mnemonic : String
  pattern : Word
  mask : Word
  indexed : Bool
deriving DecidableEq, Repr

/-- The 26 rows of R77, in its order. -/
def opcodeTable : List OpRow :=
  [⟨"NOP", 0x00000000, 0xFFFFFFFF, false⟩, ⟨"SETDIM", 0x01000000, 0xFFFFFF00, false⟩,
   ⟨"LDK", 0x02000000, 0xFFFFF000, true⟩, ⟨"LDA", 0x03000000, 0xFF000000, false⟩,
   ⟨"LDM", 0x04000000, 0xFFFF0000, false⟩, ⟨"LDB", 0x05000000, 0xFF000000, false⟩,
   ⟨"SETLEN", 0x06000000, 0xFFFF0000, false⟩] ++
  [⟨"RDDIM", 0x10000000, 0xFFFFFFFF, false⟩, ⟨"RDK", 0x11000000, 0xFFFFF0FF, true⟩,
   ⟨"RDA", 0x12000000, 0xFFFFFFFF, false⟩, ⟨"RDM", 0x13000000, 0xFFFFFFFF, false⟩,
   ⟨"RDADJ", 0x14000000, 0xFFFFF0FF, true⟩, ⟨"RDINV", 0x15000000, 0xFFFFF0FF, true⟩,
   ⟨"RDLEN", 0x16000000, 0xFFFFFFFF, false⟩, ⟨"RDOLEN", 0x17000000, 0xFFFFFFFF, false⟩,
   ⟨"RDB", 0x18000000, 0xFF0000FF, false⟩, ⟨"RDO", 0x19000000, 0xFF0000FF, false⟩] ++
  [⟨"VALK", 0x20000000, 0xFFFFFFFF, false⟩, ⟨"DET", 0x21000000, 0xFFFFFFFF, false⟩,
   ⟨"CHKINV", 0x22000000, 0xFFFFFFFF, false⟩, ⟨"GCD", 0x23000000, 0xFFFFFFFF, false⟩,
   ⟨"MODINV", 0x24000000, 0xFFFFFFFF, false⟩, ⟨"ADJ", 0x25000000, 0xFFFFFFFF, false⟩,
   ⟨"KINV", 0x26000000, 0xFFFFFFFF, false⟩, ⟨"ENC", 0x27000000, 0xFFFFFFFF, false⟩,
   ⟨"DEC", 0x28000000, 0xFFFFFFFF, false⟩]

/-- "a word `w` spells the command iff `(w & mask) == match` and, for formats E and ER, `r ≠ 3` and
`c ≠ 3`" (R77). -/
def OpRow.spells (row : OpRow) (w : Word) : Bool :=
  (w &&& row.mask == row.pattern) && (!row.indexed || (indexLegal (rField w) && indexLegal (cField w)))

/-! ## A command word on a byte-wide channel (20_memory.md R55): bits 7:0 go first -/

/-- The four bytes of a command word in the order they are carried. -/
def channelBytes (w : Word) : List Byte :=
  [w.extractLsb' 0 8, w.extractLsb' 8 8, w.extractLsb' 16 8, w.extractLsb' 24 8]

/-- The command word carried by four bytes, the first one lowest. -/
def channelWord (b0 b1 b2 b3 : Byte) : Word := b3 ++ b2 ++ b1 ++ b0

end Sys2Proof
end

