-- ==== Sys2Proof/Config.lean ====
section
/-! DEFINITION. The constants of the hardware: those the source document fixes (00_scope.md R4)
and the one parameter an instance chooses, `MSGCAP` (00_scope.md R5, 92_eei_decisions.md D12). The
spec leaves no value open, so there is no free value here. -/

namespace Sys2Proof

/-- `Q`, the cipher modulus and alphabet size (R4). -/
def Config.q : Int := 26

/-- `PADV`, the value of the padding letter 'Z' (R4). -/
def Config.padv : Int := 25

/-- The largest legal key entry (R4, "entry range"). -/
def Config.maxEntry : Byte := 25

/-- `MSGCAP`, the capacity of the message buffer in bytes: 256 in this instance (R5). Log entry 5. -/
def Config.msgCap : Nat := 256

/-- `OUTCAP` = `MSGCAP + 2`, the capacity of the result buffer in bytes (R5). -/
def Config.outCap : Nat := Config.msgCap + 2

/-- The reset value of `MOD` (10_state.md R24, R31). -/
def Config.modReset : Word := 26

end Sys2Proof
end

