-- ==== Sys2Proof/Machine/State.lean ====
section
/-! DEFINITION. The unit's architectural state, exactly the ten items of 10_state.md R20
(`UnitState`), and the transaction level around it: what the host will do next and the responses
returned so far (00_scope.md R10; log entry 1). Reset values: R31. -/

namespace Sys2Proof.Machine

/-- Three like things, in order: a row of a matrix register, or a matrix register as three rows. -/
structure Triple (α : Type) where
  x0 : α
  x1 : α
  x2 : α
deriving DecidableEq, Repr

/-- A 3 × 3 array, row by row: `M[r][c]` is entry `c` of row `r` (R22). -/
abbrev Mat3 (α : Type) := Triple (Triple α)

/-- A buffer: the listed bytes at strictly rising addresses, none of them 0; an address that is not
listed reads 0, the reset value of every buffer byte (R31). -/
abbrev Memory := List Host.Cell

/-- The key dimension register `KDIM`, two 4-bit fields (R21). -/
structure Kdim where
  rows : BitVec 4
  cols : BitVec 4
deriving DecidableEq, Repr

/-- The unit's state: the ten items of R20 and nothing else (R20, R30, R32). -/
structure UnitState where
  /-- `KDIM` (R21) -/
  kdim : Kdim
  /-- `K` (R22) -/
  k : Mat3 Byte
  /-- `A`, two's complement (R23) -/
  a : Word
  /-- `MOD`, unsigned (R24) -/
  modulus : Word
  /-- `ADJ` (R25) -/
  adj : Mat3 Byte
  /-- `INV` (R26) -/
  inv : Mat3 Byte
  /-- `MSG` (R27, R50) -/
  msg : Memory
  /-- `MSGLEN` (R27) -/
  msgLen : BitVec 16
  /-- `OUT` (R28, R50) -/
  out : Memory
  /-- `OUTLEN` (R28) -/
  outLen : BitVec 16
deriving DecidableEq, Repr

/-- The error kinds of 60_exceptions.md R221. -/
inductive ErrorKind where
  | invalidKey
  | unsupportedSize
  | notInvertible
  | noModularInverse
  | invalidAlphabet
  | lengthMismatch
  | illegalCommand
  | bufferRange
deriving DecidableEq, Repr

/-- The response to one command (30_encoding.md R81). -/
structure Response where
  code : BitVec 8
  data : Word
deriving DecidableEq, Repr

/-- What the host can do (00_scope.md R9): present a command word, or reset the unit
(70_reset_and_hazards.md R250, R255). -/
inductive HostEvent where
  | command (w : Word)
  | reset
deriving DecidableEq, Repr

/-- The unit, the host's events that have not happened yet (oldest first), and the responses returned
so far (oldest first). The last two are the run's, not the unit's (R10, R30; log entry 1). -/
structure State where
  unit : UnitState
  inputs : List HostEvent
  responses : List Response
deriving DecidableEq, Repr

/-- Why the model may stop. The unit itself never does (60_exceptions.md R230). -/
inductive Fault where
  /-- Raised by ENC and DEC alone, when `MSGLEN` is above `MSGCAP`, so that the message would reach
  buffer addresses that do not exist (20_memory.md R57, R62). No run from reset reaches such a state
  (R27, R29). Safe: the model stops where the spec describes no machine (log entry 6). -/
  | outsideBuffer
deriving DecidableEq, Repr

/-- Why the model may refuse an instruction. -/
inductive Refusal where
  /-- Raised by an arm of `exec` whose instruction has no meaning yet: no arm does. Safe. -/
  | notModelled (mnemonic : String)
deriving DecidableEq, Repr

/-- A matrix register with every entry 0. -/
def zeroMatrix : Mat3 Byte := ⟨⟨0, 0, 0⟩, ⟨0, 0, 0⟩, ⟨0, 0, 0⟩⟩

/-- The unit after reset: everything 0 but `MOD`, which is 26 (R31). -/
def UnitState.reset : UnitState where
  kdim := ⟨0, 0⟩
  k := zeroMatrix
  a := 0
  modulus := Config.modReset
  adj := zeroMatrix
  inv := zeroMatrix
  msg := []
  msgLen := 0
  out := []
  outLen := 0

/-- The machine right after reset: the unit reset (R31), no event from the host yet and no response
returned yet (DESIGN CHOICE for the last two, log entry 1). -/
def State.reset : State where
  unit := UnitState.reset
  inputs := []
  responses := []

end Sys2Proof.Machine
end

