-- ==== Sys2Proof/Machine/Flags.lean ====
section
/-! DEFINITION. The unit has no flags and no condition codes (10_state.md R30): the outcome of a
command is the code of its response (30_encoding.md R81, 60_exceptions.md R221), computed here. -/

namespace Sys2Proof.Machine

/-- The response code of an error kind (R221). -/
def ErrorKind.code : ErrorKind → BitVec 8
  | .invalidKey => 1
  | .unsupportedSize => 2
  | .notInvertible => 3
  | .noModularInverse => 4
  | .invalidAlphabet => 5
  | .lengthMismatch => 6
  | .illegalCommand => 7
  | .bufferRange => 8

/-- The response of a command that succeeded with the value `d` (R81). -/
def okResponse (d : Word) : Response := ⟨0, d⟩

/-- The response of a command that ended with an error: `data` is 0 (R81, R220). -/
def errorResponse (e : ErrorKind) : Response := ⟨e.code, 0⟩

/-- The response as one 40-bit value, `code` in bits 39:32 (R81). -/
def responseBits (r : Response) : BitVec 40 := r.code ++ r.data

end Sys2Proof.Machine
end

