-- ==== Sys2Proof/Machine/Ops.lean ====
section
/-! DEFINITION. The shared operations: reading and writing a matrix register and a buffer, the
bounds of the two buffers, answering a command (`respond`), ending it with an error (`raise`, the
unit's only exception), and taking the host's next event. -/

namespace Sys2Proof.Machine

/-- What a command's meaning answers. -/
abbrev Result := Host.Outcome State Fault Refusal

/-! ## Matrix registers (10_state.md R22, R25, R26) -/

/-- Element `i`. -/
def Triple.get {α : Type} (t : Triple α) : Fin 3 → α
  | 0 => t.x0
  | 1 => t.x1
  | 2 => t.x2

/-- `t` with element `i` replaced. -/
def Triple.set {α : Type} (t : Triple α) (i : Fin 3) (v : α) : Triple α :=
  match i with
  | 0 => ⟨v, t.x1, t.x2⟩
  | 1 => ⟨t.x0, v, t.x2⟩
  | 2 => ⟨t.x0, t.x1, v⟩

/-- Entry `(r, c)`: row `r`, column `c` (R22). -/
def matGet {α : Type} (M : Mat3 α) (r c : Fin 3) : α := (M.get r).get c

/-- `M` with entry `(r, c)` replaced. -/
def matSet {α : Type} (M : Mat3 α) (r c : Fin 3) (v : α) : Mat3 α :=
  M.set r ((M.get r).set c v)

/-- The 3 × 3 array whose entry `(r, c)` is `f r c`. -/
def matOf {α : Type} (f : Fin 3 → Fin 3 → α) : Mat3 α :=
  ⟨⟨f 0 0, f 0 1, f 0 2⟩, ⟨f 1 0, f 1 1, f 1 2⟩, ⟨f 2 0, f 2 1, f 2 2⟩⟩

/-! ## Buffers (20_memory.md R50, R53, R57, R62) -/

/-- What an address that is not listed reads as: the reset value of every buffer byte (R31). -/
def Memory.unlisted : Byte := 0

/-- The byte at an address. -/
def Memory.read : Memory → Nat → Byte
  | [], _ => Memory.unlisted
  | (b, w) :: rest, a => if a = b then w else Memory.read rest a

/-- The buffer with the byte at address `a` replaced by `v`; the form stays canonical. -/
def Memory.write : Memory → Nat → Byte → Memory
  | [], a, v => if v = Memory.unlisted then [] else [(a, v)]
  | (b, w) :: rest, a, v =>
    if a < b then (if v = Memory.unlisted then (b, w) :: rest else (a, v) :: (b, w) :: rest)
    else if a = b then (if v = Memory.unlisted then rest else (b, v) :: rest)
    else (b, w) :: Memory.write rest a v

/-- Bytes written at consecutive addresses from `a` on, in order. -/
def Memory.writeAll : Memory → Nat → List Byte → Memory
  | m, _, [] => m
  | m, a, v :: vs => Memory.writeAll (Memory.write m a v) (a + 1) vs

/-- Canonical from address `lo` on: addresses strictly rising from `lo`, no listed byte equal to what
an unlisted address reads as. -/
def Memory.wfFrom : Nat → Memory → Bool
  | _, [] => true
  | lo, (a, v) :: rest => decide (lo ≤ a) && v != Memory.unlisted && Memory.wfFrom (a + 1) rest

/-- The canonical form. -/
def Memory.wf (m : Memory) : Bool := Memory.wfFrom 0 m

/-- No listed address at or above the capacity: those addresses do not exist (R57). -/
def Memory.within (cap : Nat) (m : Memory) : Bool := m.all fun cell => decide (cell.1 < cap)

/-- The byte at address `addr` of `MSG`; none where the address does not exist (R62). -/
def readMsg (u : UnitState) (addr : Nat) : Option Byte :=
  if addr < Config.msgCap then some (Memory.read u.msg addr) else none

/-- A write of one byte of `MSG`; none where the address does not exist (R62). -/
def writeMsg (u : UnitState) (addr : Nat) (v : Byte) : Option UnitState :=
  if addr < Config.msgCap then some { u with msg := Memory.write u.msg addr v } else none

/-- The byte at address `addr` of `OUT`; none where the address does not exist (R62). -/
def readOut (u : UnitState) (addr : Nat) : Option Byte :=
  if addr < Config.outCap then some (Memory.read u.out addr) else none

/-- `MSG[0 .. MSGLEN − 1]`, left to right (R54, R61); none where that reaches an address that does
not exist. -/
def message (u : UnitState) : Option (List Byte) :=
  if u.msgLen.toNat ≤ Config.msgCap then some ((List.range u.msgLen.toNat).map (Memory.read u.msg))
  else none

/-- `OUT[0 .. L − 1]` and `OUTLEN <- L` for a result text of `L` bytes (R28, R61); none where it would
reach an address that does not exist. The bytes of `OUT` at and above `L` stay. -/
def writeResult (u : UnitState) (text : List Byte) : Option UnitState :=
  if text.length ≤ Config.outCap then
    some { u with out := Memory.writeAll u.out 0 text, outLen := BitVec.ofNat 16 text.length }
  else none

/-! ## Updates of one item of state -/

/-- `KDIM.ROWS <- rows`, `KDIM.COLS <- cols` -/
def UnitState.setKdim (u : UnitState) (rows cols : BitVec 4) : UnitState :=
  { u with kdim := ⟨rows, cols⟩ }
/-- `K[r][c] <- v` -/
def UnitState.setK (u : UnitState) (r c : Fin 3) (v : Byte) : UnitState :=
  { u with k := matSet u.k r c v }
/-- `A <- v` -/
def UnitState.setA (u : UnitState) (v : Word) : UnitState := { u with a := v }
/-- `MOD <- v` -/
def UnitState.setModulus (u : UnitState) (v : Word) : UnitState := { u with modulus := v }
/-- all nine entries of `ADJ` -/
def UnitState.setAdj (u : UnitState) (M : Mat3 Byte) : UnitState := { u with adj := M }
/-- all nine entries of `INV` -/
def UnitState.setInv (u : UnitState) (M : Mat3 Byte) : UnitState := { u with inv := M }
/-- `MSGLEN <- v` -/
def UnitState.setMsgLen (u : UnitState) (v : BitVec 16) : UnitState := { u with msgLen := v }

/-- The machine with another unit state. -/
def State.withUnit (s : State) (u : UnitState) : State := { s with unit := u }

/-- The machine with one more response returned. -/
def State.addResponse (s : State) (r : Response) : State :=
  { s with responses := s.responses ++ [r] }

/-! ## Ending a command (00_scope.md section 4, 60_exceptions.md R220, R227) -/

/-- `respond(d)`: the command succeeded; its writes are those already in `s` (R81). -/
def respond (d : Word) (s : State) : Result := .next (s.addResponse (okResponse d))

/-- `raise E`: TAKING THE UNIT'S EXCEPTION. `s` is the state before the command; no register and no
buffer byte is written, nothing is saved, and the response is `(code(E), 0)` (R220). There is nothing
to return from and no return command: the next command runs like any other (R227). -/
def raise (e : ErrorKind) (s : State) : Result := .next (s.addResponse (errorResponse e))

/-- Go on with the value, or raise its error in the state `s` before the command. -/
def orRaise {α : Type} (r : Except ErrorKind α) (s : State) (f : α → Result) : Result :=
  match r with
  | .ok a => f a
  | .error e => raise e s

/-- Go on with the value, or raise `e` in the state `s` before the command. -/
def orElseRaise {α : Type} (r : Option α) (e : ErrorKind) (s : State) (f : α → Result) : Result :=
  match r with
  | some a => f a
  | none => raise e s

/-- Go on with the value, or stop: the access would reach buffer addresses that do not exist
(log entry 6). -/
def orOutside {α : Type} (r : Option α) (f : α → Result) : Result :=
  match r with
  | some a => f a
  | none => .fault .outsideBuffer

/-! ## The true modulo (00_scope.md R7) -/

/-- `emod(x, m)`: for `m ≥ 1` the `r` in `[0, m − 1]` with `x − r` divisible by `m` (R7; log entry 8
for `m ≤ 0`, where no rule evaluates it). -/
def emod (x m : Int) : Int := x % m

/-! ## The host's side (00_scope.md R10, 70_reset_and_hazards.md R250, R255) -/

/-- The host's next event, and the machine once it has happened. -/
def takeInput (s : State) : Option (HostEvent × State) :=
  match s.inputs with
  | [] => none
  | e :: rest => some (e, { s with inputs := rest })

/-- Reset: every item of the unit's state gets its reset value; no response (R250). What the host
still means to do and what it has been answered are not the unit's and stay (log entry 4). -/
def hostReset (s : State) : State := s.withUnit UnitState.reset

/-- The answer to a word that spells no command (30_encoding.md R78, R79): `IllegalCommand`, no state
change, whatever the decoder's reason. -/
def rejectWord (s : State) : Result := raise .illegalCommand s

/-- The host's next event is the command word `w`; what it meant to do stays behind it (log entry 2). -/
def presentWord (s : State) (w : Word) : State := { s with inputs := .command w :: s.inputs }

end Sys2Proof.Machine
end

