-- ==== Sys2Proof/Machine/Operands.lean ====
section
/-! DEFINITION. How an operand of a command word becomes the value the command uses (30_encoding.md
R82), and how register values become integers (00_scope.md R6 and section 4, 44_cipher.md R190). -/

namespace Sys2Proof.Machine

/-- A 2-bit index as a row or column number; none for the illegal value 3 (R82). -/
def entryIndex (i : BitVec 2) : Option (Fin 3) :=
  match i.toNat with
  | 0 => some 0
  | 1 => some 1
  | 2 => some 2
  | _ => none

/-- Go on with the entry `(r, c)`; an index of 3 is `IllegalCommand` (30_encoding.md R79 (b)). The
decoder never gives an instruction with such an index (R85; log entry 7). -/
def atEntry (r c : BitVec 2) (s : State) (f : Fin 3 → Fin 3 → Result) : Result :=
  orElseRaise (entryIndex r) .illegalCommand s fun i =>
    orElseRaise (entryIndex c) .illegalCommand s fun j => f i j

/-- `sext_32(simm24)` (R82). -/
def sext24 (v : BitVec 24) : Word := v.signExtend 32

/-- `zext_32` of a 16-bit value (R82). -/
def zext16 (v : BitVec 16) : Word := v.zeroExtend 32

/-- `zext_32` of a byte. -/
def zext8 (v : Byte) : Word := v.zeroExtend 32

/-- `zext_32(KDIM.COLS ‖ KDIM.ROWS)` (40_data_movement.md R107). -/
def kdimWord (d : Kdim) : Word := (d.cols ++ d.rows : BitVec 8).zeroExtend 32

/-- `tc32(i)`: the two's complement pattern of an integer. -/
def tc32 (i : Int) : Word := BitVec.ofInt 32 i

/-- `zext_32` of a natural number below 2^32. -/
def zextNat (n : Nat) : Word := BitVec.ofNat 32 n

/-- `signed(A)` -/
def signedA (u : UnitState) : Int := u.a.toInt

/-- `MOD` as the unsigned integer it is. -/
def modulusNat (u : UnitState) : Nat := u.modulus.toNat

/-- The key matrix entries as integers (R6). -/
def keyMatrix (u : UnitState) : Mat3 Int := matOf fun r c => ((matGet u.k r c).toNat : Int)

/-- `val` of an upper-case letter byte (44_cipher.md R190, 00_scope.md R8). -/
def letterValue (b : Byte) : Int := (b.toNat : Int) - 0x41

/-- The letter byte of a value in `[0, 25]` (R190: `chr26`). -/
def letterByte (v : Int) : Byte := BitVec.ofInt 8 (0x41 + v)

/-- The order `n` of a square key the unit accepts: 2 or 3 (00_scope.md R4). -/
inductive Order where
  | two
  | three
deriving DecidableEq, Repr

/-- `n` -/
def orderNat : Order → Nat
  | .two => 2
  | .three => 3

/-- The order a dimension field declares, where it is one the unit accepts. -/
def orderOf (d : BitVec 4) : Option Order :=
  match d.toNat with
  | 2 => some .two
  | 3 => some .three
  | _ => none

/-- `0 .. n − 1` -/
def indices : Order → List (Fin 3)
  | .two => [0, 1]
  | .three => [0, 1, 2]

/-- What ADJ and KINV write to their result register: the entries inside the order, 0 outside
(10_state.md R25, R26). -/
def resultMatrix (n : Order) (M : Mat3 Int) : Mat3 Byte :=
  matOf fun r c =>
    if r.val < orderNat n ∧ c.val < orderNat n then BitVec.ofInt 8 (matGet M r c) else 0

end Sys2Proof.Machine
end

