-- ==== Sys2Proof/Machine/Modular.lean ====
section
/-! DEFINITION. Modular integer arithmetic: the greatest common divisor, the modular inverse search,
and the commands GCD and MODINV (42_modular_inverse.md R150 to R154). -/

namespace Sys2Proof.Machine

/-- `gcd(x, y)` (R150): the largest common divisor, and 0 at (0, 0). -/
def gcdOf (x y : Nat) : Nat := Nat.gcd x y

/-- The tail of the search of R151 that has `k` candidates left: `m − k, … , m − 1`, ascending. -/
def modinvSearch (a : Int) (m : Nat) : Nat → Option Nat
  | 0 => none
  | k + 1 =>
    if emod (a * ((m - (k + 1) : Nat) : Int)) m = 1 then some (m - (k + 1))
    else modinvSearch a m k

/-- `modinv(a, m)` (R151): the first `x` of `1, … , m − 1` with `emod(a * x, m) = 1`; none when there is
none, as for `m ≤ 1`, where the range is empty. -/
def modinv (a : Int) (m : Nat) : Option Nat := modinvSearch a m (m - 1)

/-- GCD (R153) -/
def execGcd (s : State) : Result :=
  respond (zextNat (gcdOf (signedA s.unit).natAbs (modulusNat s.unit))) s

/-- MODINV (R154) -/
def execModinv (s : State) : Result :=
  orElseRaise (modinv (signedA s.unit) (modulusNat s.unit)) .noModularInverse s fun x =>
    respond (zextNat x) s

end Sys2Proof.Machine
end

