-- ==== Sys2Proof/Machine/Key.lean ====
section
/-! DEFINITION. Key validation, determinant, invertibility, and the commands VALK, DET, CHKINV
(41_determinant.md R130 to R137). -/

namespace Sys2Proof.Machine

/-- Every entry inside the order is at most 25 (R130, third check). -/
def entriesLegal (n : Order) (k : Mat3 Byte) : Bool :=
  (indices n).all fun r => (indices n).all fun c => decide (matGet k r c ≤ Config.maxEntry)

/-- `keycheck()` (R130): square, then the order, then the entries. -/
def keycheck (u : UnitState) : Except ErrorKind Order :=
  if u.kdim.rows ≠ u.kdim.cols then .error .invalidKey
  else
    match orderOf u.kdim.rows with
    | none => .error .unsupportedSize
    | some n => if entriesLegal n u.k then .ok n else .error .invalidKey

/-- `det(n)` (R131, R132), an exact integer. -/
def det : Order → Mat3 Int → Int
  | .two, ⟨⟨a, b, _⟩, ⟨c, d, _⟩, _⟩ => a * d - b * c
  | .three, ⟨⟨a, b, c⟩, ⟨d, e, f⟩, ⟨g, h, i⟩⟩ =>
    a * (e * i - f * h) - b * (d * i - f * g) + c * (d * h - e * g)

/-- `invertible26(D)` (R136). -/
def invertible26 (D : Int) : Bool :=
  emod D Config.q != 0 && gcdOf (emod D Config.q).toNat Config.q.toNat == 1

/-- VALK (R134) -/
def execValk (s : State) : Result :=
  orRaise (keycheck s.unit) s fun n => respond (zextNat (orderNat n)) s

/-- DET (R135) -/
def execDet (s : State) : Result :=
  orRaise (keycheck s.unit) s fun n => respond (tc32 (det n (keyMatrix s.unit))) s

/-- CHKINV (R137) -/
def execChkinv (s : State) : Result :=
  orRaise (keycheck s.unit) s fun n =>
    if invertible26 (det n (keyMatrix s.unit)) then
      respond (zextNat (emod (det n (keyMatrix s.unit)) Config.q).toNat) s
    else raise .notInvertible s

end Sys2Proof.Machine
end

