-- ==== Sys2Proof/Machine/Inverse.lean ====
section
/-! DEFINITION. The adjugate and the inverse of the key modulo 26, and the commands ADJ, KINV
(43_adjugate_inverse.md R170 to R175). -/

namespace Sys2Proof.Machine

/-- `adj(n)` (R170, R171): each cofactor reduced on its own. The entries outside a 2 × 2 result are
set to 0; no rule reads them (log entry 8). -/
def adj : Order → Mat3 Int → Mat3 Int
  | .two, ⟨⟨a, b, _⟩, ⟨c, d, _⟩, _⟩ =>
    ⟨⟨emod d Config.q, emod (-b) Config.q, 0⟩,
     ⟨emod (-c) Config.q, emod a Config.q, 0⟩,
     ⟨0, 0, 0⟩⟩
  | .three, ⟨⟨a, b, c⟩, ⟨d, e, f⟩, ⟨g, h, i⟩⟩ =>
    ⟨⟨emod (e * i - f * h) Config.q, emod (-(b * i - c * h)) Config.q, emod (b * f - c * e) Config.q⟩,
     ⟨emod (-(d * i - f * g)) Config.q, emod (a * i - c * g) Config.q, emod (-(a * f - c * d)) Config.q⟩,
     ⟨emod (d * h - e * g) Config.q, emod (-(a * h - b * g)) Config.q, emod (a * e - b * d) Config.q⟩⟩

/-- `emod(x * J[r][c], 26)` for every entry (R173, last step). -/
def scaleMatrix (x : Nat) (J : Mat3 Int) : Mat3 Int :=
  matOf fun r c => emod ((x : Int) * matGet J r c) Config.q

/-- `keyinv(n)` (R173). The branch that raises `NoModularInverse` is dead (R175) and kept, as the rule
keeps it. -/
def keyinv (n : Order) (M : Mat3 Int) : Except ErrorKind (Mat3 Int) :=
  if invertible26 (det n M) then
    match modinv (emod (det n M) Config.q) Config.q.toNat with
    | none => .error .noModularInverse
    | some x => .ok (scaleMatrix x (adj n M))
  else .error .notInvertible

/-- ADJ (R172) -/
def execAdj (s : State) : Result :=
  orRaise (keycheck s.unit) s fun n =>
    respond 0 (s.withUnit (s.unit.setAdj (resultMatrix n (adj n (keyMatrix s.unit)))))

/-- KINV (R174) -/
def execKinv (s : State) : Result :=
  orRaise (keycheck s.unit) s fun n =>
    orRaise (keyinv n (keyMatrix s.unit)) s fun V =>
      respond 0 (s.withUnit (s.unit.setInv (resultMatrix n V)))

end Sys2Proof.Machine
end

