-- ==== Sys2Proof/Machine/Cipher.lean ====
section
/-! DEFINITION. Preprocessing, padding, the matrix-vector multiplier modulo 26, the block transform,
and the commands ENC, DEC (44_cipher.md R190 to R197). -/

namespace Sys2Proof.Machine

/-- A lower-case letter's upper-case form; any other byte as it is (R191). -/
def upperCase (b : Byte) : Byte := if 0x61 ≤ b ∧ b ≤ 0x7A then b - 0x20 else b

/-- `prep()` on the message bytes (R191), left to right. -/
def prep : List Byte → Except ErrorKind (List Int)
  | [] => .ok []
  | b :: rest =>
    if upperCase b = 0x20 then prep rest
    else if upperCase b < 0x41 ∨ 0x5A < upperCase b then .error .invalidAlphabet
    else
      match prep rest with
      | .ok S => .ok (letterValue (upperCase b) :: S)
      | .error e => .error e

/-- `pad(S, n)` (R192). -/
def pad (S : List Int) (n : Order) : List Int :=
  S ++ List.replicate (emod (-(S.length : Int)) (orderNat n)).toNat Config.padv

/-- `matvec(M, v, n)` (R193): `w[i] = emod(Σ_j M[i][j] * v[j], 26)` for `i` in `0 .. n − 1`. -/
def matvec (M : Mat3 Int) (v : Triple Int) (n : Order) : List Int :=
  (indices n).map fun i => emod (((indices n).map fun j => matGet M i j * v.get j).sum) Config.q

/-- `transform(M, S, n)` (R194): block by block, each block's components together. A block shorter
than `n` at the end would be dropped; no rule gives one (log entry 8). -/
def transform (M : Mat3 Int) : List Int → Order → List Int
  | a :: b :: rest, .two => matvec M ⟨a, b, 0⟩ .two ++ transform M rest .two
  | a :: b :: c :: rest, .three => matvec M ⟨a, b, c⟩ .three ++ transform M rest .three
  | _, _ => []

/-- The end of ENC and DEC: the values as letters into `OUT`, their number into `OUTLEN` and the
response (R196, R197). -/
def emitText (T : List Int) (s : State) : Result :=
  orOutside (writeResult s.unit (T.map letterByte)) fun u => respond (zext16 u.outLen) (s.withUnit u)

/-- ENC (R196) -/
def execEnc (s : State) : Result :=
  orRaise (keycheck s.unit) s fun n =>
    orOutside (message s.unit) fun bytes =>
      orRaise (prep bytes) s fun S => emitText (transform (keyMatrix s.unit) (pad S n) n) s

/-- DEC (R197) -/
def execDec (s : State) : Result :=
  orRaise (keycheck s.unit) s fun n =>
    orOutside (message s.unit) fun bytes =>
      orRaise (prep bytes) s fun S =>
        if emod S.length (orderNat n) ≠ 0 then raise .lengthMismatch s
        else orRaise (keyinv n (keyMatrix s.unit)) s fun V => emitText (transform V S n) s

end Sys2Proof.Machine
end

