-- ==== Sys2Proof/Machine/Move.lean ====
section
/-! DEFINITION. The 17 data movement commands (40_data_movement.md R100 to R116). -/

namespace Sys2Proof.Machine

/-- NOP (R100) -/
def execNop (s : State) : Result := respond 0 s

/-- SETDIM rows, cols (R101) -/
def execSetdim (rows cols : BitVec 4) (s : State) : Result :=
  respond 0 (s.withUnit (s.unit.setKdim rows cols))

/-- LDK r, c, imm8 (R102) -/
def execLdk (r c : BitVec 2) (imm8 : BitVec 8) (s : State) : Result :=
  atEntry r c s fun i j => respond 0 (s.withUnit (s.unit.setK i j imm8))

/-- LDA simm24 (R103) -/
def execLda (simm24 : BitVec 24) (s : State) : Result :=
  respond 0 (s.withUnit (s.unit.setA (sext24 simm24)))

/-- LDM uimm16 (R104) -/
def execLdm (uimm16 : BitVec 16) (s : State) : Result :=
  respond 0 (s.withUnit (s.unit.setModulus (zext16 uimm16)))

/-- LDB addr, imm8 (R105) -/
def execLdb (addr : BitVec 16) (imm8 : BitVec 8) (s : State) : Result :=
  orElseRaise (writeMsg s.unit addr.toNat imm8) .bufferRange s fun u => respond 0 (s.withUnit u)

/-- SETLEN uimm16 (R106) -/
def execSetlen (uimm16 : BitVec 16) (s : State) : Result :=
  if uimm16.toNat > Config.msgCap then raise .bufferRange s
  else respond 0 (s.withUnit (s.unit.setMsgLen uimm16))

/-- RDDIM (R107) -/
def execRddim (s : State) : Result := respond (kdimWord s.unit.kdim) s

/-- RDK r, c (R108) -/
def execRdk (r c : BitVec 2) (s : State) : Result :=
  atEntry r c s fun i j => respond (zext8 (matGet s.unit.k i j)) s

/-- RDA (R109) -/
def execRda (s : State) : Result := respond s.unit.a s

/-- RDM (R110) -/
def execRdm (s : State) : Result := respond s.unit.modulus s

/-- RDADJ r, c (R111) -/
def execRdadj (r c : BitVec 2) (s : State) : Result :=
  atEntry r c s fun i j => respond (zext8 (matGet s.unit.adj i j)) s

/-- RDINV r, c (R112) -/
def execRdinv (r c : BitVec 2) (s : State) : Result :=
  atEntry r c s fun i j => respond (zext8 (matGet s.unit.inv i j)) s

/-- RDLEN (R113) -/
def execRdlen (s : State) : Result := respond (zext16 s.unit.msgLen) s

/-- RDOLEN (R114) -/
def execRdolen (s : State) : Result := respond (zext16 s.unit.outLen) s

/-- RDB addr (R115) -/
def execRdb (addr : BitVec 16) (s : State) : Result :=
  orElseRaise (readMsg s.unit addr.toNat) .bufferRange s fun b => respond (zext8 b) s

/-- RDO addr (R116) -/
def execRdo (addr : BitVec 16) (s : State) : Result :=
  orElseRaise (readOut s.unit addr.toNat) .bufferRange s fun b => respond (zext8 b) s

end Sys2Proof.Machine
end

