-- ==== Sys2Proof/Machine/Dispatch.lean ====
section
/-! DEFINITION. One arm per command, each the call of the command's meaning. -/

namespace Sys2Proof.Machine

def exec (i : Instr) (s : State) : Host.Outcome State Fault Refusal :=
  match i with
  | .nop => Sys2Proof.Machine.execNop s
  | .setdim rows cols => Sys2Proof.Machine.execSetdim rows cols s
  | .ldk r c imm8 => Sys2Proof.Machine.execLdk r c imm8 s
  | .lda simm24 => Sys2Proof.Machine.execLda simm24 s
  | .ldm uimm16 => Sys2Proof.Machine.execLdm uimm16 s
  | .ldb addr imm8 => Sys2Proof.Machine.execLdb addr imm8 s
  | .setlen uimm16 => Sys2Proof.Machine.execSetlen uimm16 s
  | .rddim => Sys2Proof.Machine.execRddim s
  | .rdk r c => Sys2Proof.Machine.execRdk r c s
  | .rda => Sys2Proof.Machine.execRda s
  | .rdm => Sys2Proof.Machine.execRdm s
  | .rdadj r c => Sys2Proof.Machine.execRdadj r c s
  | .rdinv r c => Sys2Proof.Machine.execRdinv r c s
  | .rdlen => Sys2Proof.Machine.execRdlen s
  | .rdolen => Sys2Proof.Machine.execRdolen s
  | .rdb addr => Sys2Proof.Machine.execRdb addr s
  | .rdo addr => Sys2Proof.Machine.execRdo addr s
  | .valk => Sys2Proof.Machine.execValk s
  | .det => Sys2Proof.Machine.execDet s
  | .chkinv => Sys2Proof.Machine.execChkinv s
  | .gcd => Sys2Proof.Machine.execGcd s
  | .modinv => Sys2Proof.Machine.execModinv s
  | .adj => Sys2Proof.Machine.execAdj s
  | .kinv => Sys2Proof.Machine.execKinv s
  | .enc => Sys2Proof.Machine.execEnc s
  | .dec => Sys2Proof.Machine.execDec s

end Sys2Proof.Machine
end

