-- ==== Sys2Proof/Machine/Step.lean ====
section
/-! DEFINITION. One step: the host's next event happens (00_scope.md R10, 70_reset_and_hazards.md
R250, R255). -/

namespace Sys2Proof.Machine

/-- The unit executes one command word (30_encoding.md R85). -/
def runWord (w : Word) (s : State) : Host.Outcome State Fault Refusal :=
  match decode w with
  | .ok i => exec i s
  | .error _ => rejectWord s

/-- The host's next event: a command word is executed to completion and answered, a reset resets the
unit. With no event waiting the unit is idle and holds its state (R9, 60_exceptions.md R229; log
entry 3). -/
def step (s : State) : Host.Outcome State Fault Refusal :=
  match takeInput s with
  | none => .next s
  | some (.reset, s') => .next (hostReset s')
  | some (.command w, s') => runWord w s'

/-- The state whose next step runs the instruction of a row of spec/opcode_table.json: the host
presents that word next (log entry 2). -/
def State.withFetchWord (s : State) (nbits w : Nat) : State := presentWord s (tableWord nbits w)

end Sys2Proof.Machine
end

