-- ==== Sys2Proof/Machine/Assembler.lean ====
section
/-! DEFINITION. The assembly syntax and the pseudo-instructions (30_encoding.md R83, R84): from a line
of text to the command words it stands for. Spaces, tabs and empty lines are log entry 9. -/

namespace Sys2Proof.Machine

/-! ## Pseudo-instructions (R84) -/

/-- `KEY2 a, b, c, d` -/
def key2 (a b c d : BitVec 8) : List Instr :=
  [.setdim 2 2, .ldk 0 0 a, .ldk 0 1 b, .ldk 1 0 c, .ldk 1 1 d]

/-- `KEY3 a, b, c, d, e, f, g, h, i`, row by row -/
def key3 (a b c d e f g h i : BitVec 8) : List Instr :=
  [.setdim 3 3, .ldk 0 0 a, .ldk 0 1 b, .ldk 0 2 c, .ldk 1 0 d, .ldk 1 1 e, .ldk 1 2 f,
   .ldk 2 0 g, .ldk 2 1 h, .ldk 2 2 i]

/-- The LDB commands of `MSG`, from address `k` on. -/
def msgBytes : Nat → List (BitVec 8) → List Instr
  | _, [] => []
  | k, b :: rest => .ldb (BitVec.ofNat 16 k) b :: msgBytes (k + 1) rest

/-- `MSG "text"` for the character codes of the text -/
def msgText (codes : List (BitVec 8)) : List Instr :=
  msgBytes 0 codes ++ [.setlen (BitVec.ofNat 16 codes.length)]

/-! ## Tokens -/

inductive Token where
  | word (cs : List Char)
  | comma
  | quoted (c : Char)
  | text (cs : List Char)
deriving DecidableEq, Repr

/-- What the line reader is inside of, with the characters read so far, last first: between tokens, in
a word, in a text, after an opening quote, or after the character it quotes. -/
inductive LexMode where
  | between
  | word (seen : List Char)
  | text (seen : List Char)
  | quoteOpen
  | quoteClose (c : Char)
deriving DecidableEq, Repr

/-- The word the reader was inside of, before the tokens that follow. -/
def endWord : List Char → List Token → List Token
  | [], ts => ts
  | seen, ts => .word seen.reverse :: ts

/-- The tokens at the end of the line. -/
def lexEnd : LexMode → Option (List Token)
  | .between => some []
  | .word seen => some (endWord seen [])
  | .text _ => none
  | .quoteOpen => none
  | .quoteClose _ => none

/-- The tokens of a line; `;` outside quotes starts a comment that runs to the end of the line (R83). -/
def lexLine : List Char → LexMode → Option (List Token)
  | [], m => lexEnd m
  | c :: rest, .text seen =>
    if c = '"' then (lexLine rest .between).map fun ts => .text seen.reverse :: ts
    else lexLine rest (.text (c :: seen))
  | c :: rest, .quoteOpen => lexLine rest (.quoteClose c)
  | c :: rest, .quoteClose q =>
    if c = '\'' then (lexLine rest .between).map fun ts => .quoted q :: ts else none
  | c :: rest, .between => lexPlain c (lexLine rest) []
  | c :: rest, .word seen => lexPlain c (lexLine rest) seen
where
  /-- Character `c` outside quotes, after the word characters `seen`; `go` reads the rest. -/
  lexPlain (c : Char) (go : LexMode → Option (List Token)) (seen : List Char) : Option (List Token) :=
    if c = ';' then some (endWord seen [])
    else if c = ' ' ∨ c = '\t' then (go .between).map (endWord seen)
    else if c = ',' then (go .between).map fun ts => endWord seen (.comma :: ts)
    else if c = '"' then (go (.text [])).map (endWord seen)
    else if c = '\'' then (go .quoteOpen).map (endWord seen)
    else go (.word (c :: seen))

/-! ## Numbers (R83: decimal, `-` before a decimal, `0x` hexadecimal, one quoted character) -/

/-- A number as it is written: its sign and its magnitude. -/
structure Number where
  negative : Bool
  magnitude : Nat
deriving DecidableEq, Repr

/-- The value of a digit in a base. -/
def digitValue (base : Nat) (c : Char) : Option Nat :=
  let v := if '0' ≤ c ∧ c ≤ '9' then c.toNat - 48
    else if 'a' ≤ c ∧ c ≤ 'f' then c.toNat - 87
    else if 'A' ≤ c ∧ c ≤ 'F' then c.toNat - 55
    else 16
  if v < base then some v else none

/-- Digits after the value read so far. -/
def digitsFrom (base : Nat) : Nat → List Char → Option Nat
  | acc, [] => some acc
  | acc, c :: rest =>
    match digitValue base c with
    | some d => digitsFrom base (acc * base + d) rest
    | none => none

/-- At least one digit. -/
def digits (base : Nat) : List Char → Option Nat
  | [] => none
  | c :: rest => digitsFrom base 0 (c :: rest)

/-- The code of an ASCII character. -/
def asciiCode (c : Char) : Option (BitVec 8) :=
  if c.toNat < 128 then some (BitVec.ofNat 8 c.toNat) else none

/-- The number a token stands for. -/
def numberOf : Token → Option Number
  | .word ('-' :: ds) => (digits 10 ds).map (Number.mk true)
  | .word ('0' :: 'x' :: ds) => (digits 16 ds).map (Number.mk false)
  | .word ds => (digits 10 ds).map (Number.mk false)
  | .quoted c => (asciiCode c).map fun b => ⟨false, b.toNat⟩
  | .comma => none
  | .text _ => none

/-- Operands separated by commas. -/
def operandList : List Token → Option (List Number)
  | [] => some []
  | [t] => (numberOf t).map fun n => [n]
  | t :: .comma :: t' :: rest =>
    match numberOf t, operandList (t' :: rest) with
    | some n, some ns => some (n :: ns)
    | _, _ => none
  | _ => none

/-- An unsigned operand of `w` bits; none outside its range (R83). -/
def unsignedOperand (w : Nat) (n : Number) : Option (BitVec w) :=
  if n.negative = false ∧ n.magnitude < 2 ^ w then some (BitVec.ofNat w n.magnitude) else none

/-- A row or column index, 0 … 2. -/
def indexOperand (n : Number) : Option (BitVec 2) :=
  (unsignedOperand 2 n).filter indexLegal

/-- `simm24`, −8 388 608 … 8 388 607. -/
def signedOperand24 (n : Number) : Option (BitVec 24) :=
  if n.negative = true then
    if n.magnitude ≤ 2 ^ 23 then some (BitVec.ofInt 24 (-(n.magnitude : Int))) else none
  else if n.magnitude < 2 ^ 23 then some (BitVec.ofNat 24 n.magnitude) else none

/-- Every operand as a byte. -/
def byteOperands : List Number → Option (List (BitVec 8))
  | [] => some []
  | n :: rest =>
    match unsignedOperand 8 n, byteOperands rest with
    | some b, some bs => some (b :: bs)
    | _, _ => none

/-- The codes of a text. -/
def textCodes : List Char → Option (List (BitVec 8))
  | [] => some []
  | c :: rest =>
    match asciiCode c, textCodes rest with
    | some b, some bs => some (b :: bs)
    | _, _ => none

/-! ## Lines (R83, R84) -/

/-- The commands with no operand. -/
def plainCommands : List Instr :=
  [.nop, .rddim, .rda, .rdm, .rdlen, .rdolen, .valk, .det, .chkinv, .gcd, .modinv, .adj, .kinv,
   .enc, .dec]

/-- A command with a row and a column index. -/
def assembleEntry (mk : BitVec 2 → BitVec 2 → Instr) (r c : Number) : Option (List Instr) :=
  match indexOperand r, indexOperand c with
  | some r, some c => some [mk r c]
  | _, _ => none

/-- A mnemonic with one operand. -/
def assembleOne (m : List Char) (x : Number) : Option (List Instr) :=
  if m = "LDA".toList then (signedOperand24 x).map fun v => [.lda v]
  else if m = "LDM".toList then (unsignedOperand 16 x).map fun v => [.ldm v]
  else if m = "SETLEN".toList then (unsignedOperand 16 x).map fun v => [.setlen v]
  else if m = "RDB".toList then (unsignedOperand 16 x).map fun v => [.rdb v]
  else if m = "RDO".toList then (unsignedOperand 16 x).map fun v => [.rdo v]
  else none

/-- A mnemonic with two operands. -/
def assembleTwo (m : List Char) (x y : Number) : Option (List Instr) :=
  if m = "SETDIM".toList then
    match unsignedOperand 4 x, unsignedOperand 4 y with
    | some rows, some cols => some [.setdim rows cols]
    | _, _ => none
  else if m = "LDB".toList then
    match unsignedOperand 16 x, unsignedOperand 8 y with
    | some addr, some v => some [.ldb addr v]
    | _, _ => none
  else if m = "RDK".toList then assembleEntry .rdk x y
  else if m = "RDADJ".toList then assembleEntry .rdadj x y
  else if m = "RDINV".toList then assembleEntry .rdinv x y
  else none

/-- LDK, with three operands. -/
def assembleThree (m : List Char) (x y z : Number) : Option (List Instr) :=
  if m = "LDK".toList then
    match unsignedOperand 8 z with
    | some v => assembleEntry (fun r c => .ldk r c v) x y
    | none => none
  else none

/-- The keys of R84, from their bytes. -/
def assembleKey (m : List Char) (bs : List (BitVec 8)) : Option (List Instr) :=
  match bs with
  | [a, b, c, d] => if m = "KEY2".toList then some (key2 a b c d) else none
  | [a, b, c, d, e, f, g, h, i] =>
    if m = "KEY3".toList then some (key3 a b c d e f g h i) else none
  | _ => none

/-- A mnemonic or pseudo-instruction with its operands. -/
def assembleOps (m : List Char) (ops : List Number) : Option (List Instr) :=
  match ops with
  | [] => (plainCommands.find? fun i => decide (i.mnemonic.toList = m)).map fun i => [i]
  | [x] => assembleOne m x
  | [x, y] => assembleTwo m x y
  | [x, y, z] => assembleThree m x y z
  | _ => (byteOperands ops).bind (assembleKey m)

/-- `MSG "text"`; its addresses and its length must fit their 16-bit operands. -/
def assembleMsg (cs : List Char) : Option (List Instr) :=
  if cs.length < 2 ^ 16 then (textCodes cs).map msgText else none

/-- The commands one line of assembly stands for; none where the line cannot be assembled. -/
def assembleLine (line : List Char) : Option (List Instr) :=
  match lexLine line .between with
  | none => none
  | some [] => some []
  | some [.word m, .text cs] => if m = "MSG".toList then assembleMsg cs else none
  | some (.word m :: ts) => (operandList ts).bind (assembleOps m)
  | some _ => none

/-- The lines of a text, in order. -/
def splitLines : List Char → List (List Char)
  | [] => [[]]
  | c :: rest =>
    if c = '\n' then [] :: splitLines rest
    else
      match splitLines rest with
      | l :: ls => (c :: l) :: ls
      | [] => [[c]]

/-- The commands of a program of lines. -/
def assembleLines : List (List Char) → Option (List Instr)
  | [] => some []
  | l :: ls =>
    match assembleLine l, assembleLines ls with
    | some xs, some ys => some (xs ++ ys)
    | _, _ => none

/-- The command words of a text, one command or pseudo-instruction a line. -/
def assemble (source : String) : Option (List Word) :=
  (assembleLines (splitLines source.toList)).map fun is => is.map encode

end Sys2Proof.Machine
end

