-- ==== Sys2Proof/Safety.lean ====
section
/-! DEFINITION. The terms claims are stated in: what a command's answer leaves, which keys are valid
and what error an invalid one gives, the key's determinant and cofactors, the letters of a message,
the range invariant of 10_state.md R29, and what a safe step is. Each is written from the spec on its
own, not through the meanings. -/

namespace Sys2Proof.Machine

/-- The machine after one command that left the unit in state `u` and was answered `(code, data)`. -/
def reply (s : State) (u : UnitState) (code : BitVec 8) (data : Word) : State :=
  { unit := u, inputs := s.inputs, responses := s.responses ++ [⟨code, data⟩] }

/-- The machine after one command that ended with an error: nothing but the response (R220). -/
def replyError (s : State) (code : BitVec 8) : State := reply s s.unit code 0

/-- The key entry at row `r`, column `c`, as an integer. -/
def keyAt (u : UnitState) (r c : Fin 3) : Int := ((matGet u.k r c).toNat : Int)

/-- The key passes the three checks of 41_determinant.md R130, and its order is `n`. -/
def ValidKey (n : Nat) (u : UnitState) : Prop :=
  (n = 2 ∨ n = 3) ∧ u.kdim.rows.toNat = n ∧ u.kdim.cols.toNat = n ∧
    ∀ r c : Fin 3, r.val < n → c.val < n → keyAt u r c ≤ 25

/-- The key fails the checks of R130, and the response code is `code`: not square; square of an order
other than 2 and 3; square of order 2 or 3 with an entry above 25 inside the order. -/
def KeyError (u : UnitState) (code : BitVec 8) : Prop :=
  (u.kdim.rows ≠ u.kdim.cols ∧ code = 1) ∨
  (u.kdim.rows = u.kdim.cols ∧ u.kdim.rows.toNat ≠ 2 ∧ u.kdim.rows.toNat ≠ 3 ∧ code = 2) ∨
  (u.kdim.rows = u.kdim.cols ∧ (u.kdim.rows.toNat = 2 ∨ u.kdim.rows.toNat = 3) ∧
    (∃ r c : Fin 3, r.val < u.kdim.rows.toNat ∧ c.val < u.kdim.rows.toNat ∧ 25 < keyAt u r c) ∧
    code = 1)

/-- The determinant of the key (R131, R132). -/
def keyDet (n : Nat) (u : UnitState) : Int :=
  if n = 2 then keyAt u 0 0 * keyAt u 1 1 - keyAt u 0 1 * keyAt u 1 0
  else
    keyAt u 0 0 * (keyAt u 1 1 * keyAt u 2 2 - keyAt u 1 2 * keyAt u 2 1)
      - keyAt u 0 1 * (keyAt u 1 0 * keyAt u 2 2 - keyAt u 1 2 * keyAt u 2 0)
      + keyAt u 0 2 * (keyAt u 1 0 * keyAt u 2 1 - keyAt u 1 1 * keyAt u 2 0)

/-- The two row or column numbers other than `i`, in ascending order. -/
def others : Fin 3 → Fin 3 × Fin 3
  | 0 => (1, 2)
  | 1 => (0, 2)
  | 2 => (0, 1)

/-- `M(i, j)`: the determinant of the 2 × 2 matrix left when row `i` and column `j` of the 3 × 3 key
are deleted (43_adjugate_inverse.md R171). -/
def keyMinor (u : UnitState) (i j : Fin 3) : Int :=
  keyAt u (others i).1 (others j).1 * keyAt u (others i).2 (others j).2
    - keyAt u (others i).1 (others j).2 * keyAt u (others i).2 (others j).1

/-- The adjugate entry before reduction: the order-2 formula of R170; for order 3 the signed minor at
the transposed position (R171). -/
def keyCofactor (n : Nat) (u : UnitState) (r c : Fin 3) : Int :=
  if n = 2 then
    if r = 0 ∧ c = 0 then keyAt u 1 1
    else if r = 0 ∧ c = 1 then -keyAt u 0 1
    else if r = 1 ∧ c = 0 then -keyAt u 1 0
    else keyAt u 0 0
  else (-1) ^ (r.val + c.val) * keyMinor u c r

/-- `Σ_{j < n} X[r][j] * Y[j][c]` for two arrays of integers. -/
def entryProduct (n : Nat) (X Y : Fin 3 → Fin 3 → Int) (r c : Fin 3) : Int :=
  X r 0 * Y 0 c + X r 1 * Y 1 c + (if n = 3 then X r 2 * Y 2 c else 0)

/-- The message bytes `MSG[0 .. MSGLEN − 1]`. -/
def messageBytes (u : UnitState) : List Byte :=
  (List.range u.msgLen.toNat).map (Memory.read u.msg)

/-- The value of a byte that is a letter of either case (44_cipher.md R190, R191). -/
def letterOf (b : Byte) : Option Int :=
  if 0x41 ≤ b.toNat ∧ b.toNat ≤ 0x5A then some ((b.toNat : Int) - 0x41)
  else if 0x61 ≤ b.toNat ∧ b.toNat ≤ 0x7A then some ((b.toNat : Int) - 0x61)
  else none

/-- A byte a message may hold: a letter or the space (R191). -/
def LegalByte (b : Byte) : Prop := b = 0x20 ∨ (letterOf b).isSome = true

/-- The preprocessed message: the letters' values, spaces dropped (R191). -/
def messageLetters (u : UnitState) : List Int := (messageBytes u).filterMap letterOf

/-- Character `k` of the padded message: the letter, or 25 after the last one (R192). -/
def paddedAt (S : List Int) (k : Nat) : Int := S.getD k 25

/-- The smallest multiple of `n` that is at least `len` (R192, R198 (a)). -/
def paddedLength (n len : Nat) : Nat := n * ((len + n - 1) / n)

/-- Component `a` of the blocks of `P` multiplied by `M` modulo 26: row `a mod n` of `M` times the
block that position `a` lies in (R193, R194). -/
def blockProductAt (n : Nat) (M : Fin 3 → Fin 3 → Int) (P : Nat → Int) (a : Nat) : Int :=
  let row := Fin.ofNat 3 (a % n)
  let start := a / n * n
  (M row 0 * P start + M row 1 * P (start + 1) + (if n = 3 then M row 2 * P (start + 2) else 0)) % 26

/-- A byte that is an upper-case letter code. -/
def IsLetterCode (b : Byte) : Prop := 0x41 ≤ b.toNat ∧ b.toNat ≤ 0x5A

/-- The range invariant (10_state.md R29, with the bounds of R27, R28 and R57 and the canonical form of
the two buffers): it holds at reset and every step keeps it. -/
structure UnitInv (u : UnitState) : Prop where
  /-- every entry of `ADJ` is in [0, 25] -/
  adjRange : ∀ r c, (matGet u.adj r c).toNat ≤ 25
  /-- every entry of `INV` is in [0, 25] -/
  invRange : ∀ r c, (matGet u.inv r c).toNat ≤ 25
  /-- `MSGLEN ≤ MSGCAP` -/
  msgLenBound : u.msgLen.toNat ≤ Config.msgCap
  /-- `OUTLEN ≤ OUTCAP` -/
  outLenBound : u.outLen.toNat ≤ Config.outCap
  /-- every byte of the result is a letter -/
  outLetters : ∀ a, a < u.outLen.toNat → IsLetterCode (Memory.read u.out a)
  /-- every byte of `OUT` is 0 or a letter (R28) -/
  outBytes : ∀ a, Memory.read u.out a = 0 ∨ IsLetterCode (Memory.read u.out a)
  msgWf : Memory.wf u.msg = true
  outWf : Memory.wf u.out = true
  msgWithin : Memory.within Config.msgCap u.msg = true
  outWithin : Memory.within Config.outCap u.out = true

/-- A step that neither faults nor refuses. -/
def SafeStep (s : State) : Prop := ∃ t, step s = .next t

/-- The commands among the host's events. -/
def commandCount (es : List HostEvent) : Nat :=
  (es.filter fun e => decide (e ≠ .reset)).length

end Sys2Proof.Machine
end

