-- ==== Sys2Proof/Certificates/Slice0/Obligations.lean ====
section
/-! DEFINITION. The statements for the provers, in the terms of Sys2Proof/Safety.lean. Each docstring
names the rules of spec/ it formalises. -/

open Sys2Proof Sys2Proof.Machine

/-! ## Encoding -/

/-- Every well-formed command, with every operand value its encoding admits, is what its word decodes
to (30_encoding.md R70 to R77, R82). -/
def Obligations.EncodedCommandDecodesToItself : Prop :=
  ∀ i : Instr, WellFormed i = true → decode (encode i) = .ok i

/-- A word that decodes spells exactly one command: it is that command's encoding, and the command is
well-formed (R70 to R77, R79, R85). -/
def Obligations.DecodedWordIsTheEncoding : Prop :=
  ∀ (w : Word) (i : Instr), decode w = .ok i → WellFormed i = true ∧ encode i = w

/-- Words of 30_encoding.md's worked encodings and of 95_test_vectors.md T1, one or more a format. -/
def Obligations.PrintedWordsDecode : Prop :=
  decode 0x00000000 = .ok .nop ∧ decode 0x01000032 = .ok (.setdim 2 3) ∧
  decode 0x0200060A = .ok (.ldk 1 2 10) ∧ decode 0x030001B9 = .ok (.lda 441) ∧
  decode 0x0400001A = .ok (.ldm 26) ∧ decode 0x05000254 = .ok (.ldb 2 0x54) ∧
  decode 0x06000003 = .ok (.setlen 3) ∧ decode 0x15000900 = .ok (.rdinv 2 1) ∧
  decode 0x19010100 = .ok (.rdo 257) ∧ decode 0x26000000 = .ok .kinv ∧
  decode 0x02000C05 = .error .illegalIndex ∧ decode 0x01000122 = .error .reservedBit ∧
  decode 0x29000000 = .error .illegalOpcode

/-- The decoder against the printed opcode map (R77): a word spells a row's command by its `match`,
`mask` and index condition exactly when it decodes to a command with the row's mnemonic. -/
def Obligations.DecoderAgreesWithOpcodeMap : Prop :=
  ∀ row ∈ opcodeTable, ∀ w : Word,
    row.spells w = true ↔ ∃ i, decode w = .ok i ∧ i.mnemonic = row.mnemonic

/-- A command word whose opcode is 0x07 to 0x0F, 0x1A to 0x1F or 0x29 to 0xFF is answered
`IllegalCommand` (7) with data 0, and the unit's state stays as it was (R78). -/
def Obligations.UnassignedOpcodeIsIllegal : Prop :=
  ∀ (s : State) (w : Word) (rest : List HostEvent), s.inputs = .command w :: rest →
    ((0x07 ≤ (opField w).toNat ∧ (opField w).toNat ≤ 0x0F) ∨
      (0x1A ≤ (opField w).toNat ∧ (opField w).toNat ≤ 0x1F) ∨ 0x29 ≤ (opField w).toNat) →
    step s = .next { s with inputs := rest, responses := s.responses ++ [⟨7, 0⟩] }

/-- A command word with an opcode of the map that has a bit set which the row's mask fixes at 0, or
whose format is E or ER and whose `r` or `c` is 3, is answered `IllegalCommand` (7) with data 0, and
the unit's state stays as it was (R79). -/
def Obligations.ReservedBitOrIndexThreeIsIllegal : Prop :=
  ∀ row ∈ opcodeTable, ∀ (s : State) (w : Word) (rest : List HostEvent),
    s.inputs = .command w :: rest → opField w = opField row.pattern →
    (w &&& (row.mask &&& ~~~row.pattern) ≠ 0 ∨
      (row.indexed = true ∧ (rField w = 3 ∨ cField w = 3))) →
    step s = .next { s with inputs := rest, responses := s.responses ++ [⟨7, 0⟩] }

/-- A line that the assembler accepts gives only commands of the unit: each is well-formed, and its
word, which is what the assembler emits, decodes to it (R83, R84). -/
def Obligations.AssemblerEmitsOnlyCommands : Prop :=
  ∀ (line : List Char) (is : List Instr), assembleLine line = some is →
    ∀ i ∈ is, WellFormed i = true ∧ decode (encode i) = .ok i

/-! ## Steps, reset and the run -/

/-- A step whose next event is a command word that decodes runs that command, the event taken
(00_scope.md R10, 30_encoding.md R85). -/
def Obligations.StepRunsTheDecodedCommand : Prop :=
  ∀ (s : State) (w : Word) (rest : List HostEvent) (i : Instr),
    s.inputs = .command w :: rest → decode w = .ok i → step s = exec i { s with inputs := rest }

/-- The host's reset gives every item of the unit's state its reset value, whatever it was, and
produces no response (70_reset_and_hazards.md R250). That the events and responses stay is the
model's (log entry 4). -/
def Obligations.ResetEventResetsTheUnit : Prop :=
  ∀ (s : State) (rest : List HostEvent), s.inputs = .reset :: rest →
    step s = .next { unit := UnitState.reset, inputs := rest, responses := s.responses }

/-- With no event waiting the unit holds its state (the model's step for 00_scope.md R9; log entry 3). -/
def Obligations.IdleStepHoldsTheState : Prop :=
  ∀ s : State, s.inputs = [] → step s = .next s

/-- The reset value of every item of state, and what the rule says follows: the seven key-consuming
commands answer `UnsupportedSize` (2), GCD 26, MODINV `NoModularInverse` (4) (10_state.md R31). -/
def Obligations.ResetValuesAreTheTables : Prop :=
  let u := State.reset.unit
  u.kdim.rows = 0 ∧ u.kdim.cols = 0 ∧ (∀ r c, matGet u.k r c = 0) ∧ u.a = 0 ∧
  u.modulus.toNat = 26 ∧ (∀ r c, matGet u.adj r c = 0) ∧ (∀ r c, matGet u.inv r c = 0) ∧
  (∀ a, Memory.read u.msg a = 0) ∧ u.msgLen = 0 ∧ (∀ a, Memory.read u.out a = 0) ∧ u.outLen = 0 ∧
  (∀ i ∈ [Instr.valk, .det, .chkinv, .adj, .kinv, .enc, .dec],
    exec i State.reset = .next (replyError State.reset 2)) ∧
  exec .gcd State.reset = .next (reply State.reset u 0 26) ∧
  exec .modinv State.reset = .next (replyError State.reset 4)

/-- The range invariant holds at reset (10_state.md R29). -/
def Obligations.RangeInvariantHoldsAtReset : Prop := UnitInv State.reset.unit

/-- Every step keeps the range invariant, from every state that has it (10_state.md R29). -/
def Obligations.StepKeepsTheRangeInvariant : Prop :=
  ∀ s t : State, UnitInv s.unit → step s = .next t → UnitInv t.unit

/-- From every state with the range invariant a step goes on: nothing stops the unit
(60_exceptions.md R230, 70_reset_and_hazards.md R257). -/
def Obligations.EveryStepCompletes : Prop :=
  ∀ s : State, UnitInv s.unit → SafeStep s

/-- The only stop of any command: ENC or DEC with a valid key in a state whose `MSGLEN` is above
`MSGCAP` (the model's, log entry 6; no such state is reached). Nothing is ever refused. -/
def Obligations.OnlyOversizeMessageStops : Prop :=
  ∀ (i : Instr) (s : State),
    (∀ r, exec i s ≠ .refused r) ∧
    ((∃ f, exec i s = .fault f) ↔
      (i = .enc ∨ i = .dec) ∧ (∃ n, ValidKey n s.unit) ∧ Config.msgCap < s.unit.msgLen.toNat)

/-- Every command that completes returns exactly one response, with a code of at most 8; a code other
than 0 comes with data 0 and leaves every item of the unit's state as it was (30_encoding.md R81,
60_exceptions.md R220, 70_reset_and_hazards.md R255). -/
def Obligations.OneResponseAndNoChangeOnError : Prop :=
  ∀ (i : Instr) (s t : State), exec i s = .next t →
    ∃ (code : BitVec 8) (data : Word), t = reply s t.unit code data ∧ code.toNat ≤ 8 ∧
      (code ≠ 0 → data = 0 ∧ t.unit = s.unit)

/-- A run over any list of host events, from any state with the range invariant, consumes it one event
a step, ends with nothing waiting and with the invariant, and returns one response for each command
and none for a reset (00_scope.md R10, R250, R255). That the later events and the earlier responses
survive a reset inside the run is the model's (log entry 4). -/
def Obligations.RunAnswersEveryCommandOnce : Prop :=
  ∀ s : State, UnitInv s.unit →
    ∃ t rs, Host.Core.run Sys2Proof.core s.inputs.length s = .next t ∧ t.inputs = [] ∧
      UnitInv t.unit ∧ t.responses = s.responses ++ rs ∧ rs.length = commandCount s.inputs

/-- Each item of state is written by no command but the ones its rule names (10_state.md R21 to R28),
whatever the command, its operands and the state. -/
def Obligations.OnlyTheNamedCommandsWrite : Prop :=
  ∀ (i : Instr) (s t : State), exec i s = .next t →
    (t.unit.kdim ≠ s.unit.kdim → i.mnemonic = "SETDIM") ∧
    (t.unit.k ≠ s.unit.k → i.mnemonic = "LDK") ∧
    (t.unit.a ≠ s.unit.a → i.mnemonic = "LDA") ∧
    (t.unit.modulus ≠ s.unit.modulus → i.mnemonic = "LDM") ∧
    (t.unit.adj ≠ s.unit.adj → i.mnemonic = "ADJ") ∧
    (t.unit.inv ≠ s.unit.inv → i.mnemonic = "KINV") ∧
    (t.unit.msg ≠ s.unit.msg → i.mnemonic = "LDB") ∧
    (t.unit.msgLen ≠ s.unit.msgLen → i.mnemonic = "SETLEN") ∧
    (t.unit.out ≠ s.unit.out ∨ t.unit.outLen ≠ s.unit.outLen →
      i.mnemonic = "ENC" ∨ i.mnemonic = "DEC")

/-- Issuing the same command again at once gives the same response and leaves the same unit state: a
read repeats, a store stores the same, a failure fails the same, ENC and DEC give the same result
(20_memory.md R56, 60_exceptions.md R227, 44_cipher.md R198 (d)). -/
def Obligations.RepeatedCommandGivesTheSameAgain : Prop :=
  ∀ (i : Instr) (s : State) (u : UnitState) (code : BitVec 8) (data : Word), UnitInv s.unit →
    exec i s = .next (reply s u code data) →
    exec i (reply s u code data) = .next (reply (reply s u code data) u code data)

/-- The response of a compute command depends on nothing but the operand registers its rule names: the
key for VALK, DET, CHKINV, ADJ, KINV; `A` and `MOD` for GCD, MODINV; the key and the message for ENC
and DEC (00_scope.md R11). So does what it writes. -/
def Obligations.ComputeResultDependsOnItsOperands : Prop :=
  ∀ (i : Instr) (s s' : State) (u : UnitState) (code : BitVec 8) (data : Word),
    UnitInv s.unit → UnitInv s'.unit →
    ((i ∈ [.valk, .det, .chkinv, .adj, .kinv] ∧
        s.unit.kdim = s'.unit.kdim ∧ s.unit.k = s'.unit.k) ∨
      (i ∈ [.gcd, .modinv] ∧ s.unit.a = s'.unit.a ∧ s.unit.modulus = s'.unit.modulus) ∨
      (i ∈ [.enc, .dec] ∧ s.unit.kdim = s'.unit.kdim ∧ s.unit.k = s'.unit.k ∧
        messageBytes s.unit = messageBytes s'.unit)) →
    exec i s = .next (reply s u code data) →
    ∃ u', exec i s' = .next (reply s' u' code data) ∧
      (code = 0 → i = .adj → u'.adj = u.adj) ∧
      (code = 0 → i = .kinv → u'.inv = u.inv) ∧
      (code = 0 → i = .enc ∨ i = .dec → u'.outLen = u.outLen ∧
        ∀ a, a < u.outLen.toNat → Memory.read u'.out a = Memory.read u.out a)

/-! ## Data movement (40_data_movement.md) -/

/-- NOP, SETDIM, LDA, LDM, by their words, in every state: the register written, everything else as it
was, response `(0, 0)` (R100, R101, R103, R104). -/
def Obligations.RegisterLoadsWriteTheirRegister : Prop :=
  decode 0x00000000 = .ok .nop ∧
  (∀ rows cols, decode (encodeD 0x01 rows cols) = .ok (.setdim rows cols)) ∧
  (∀ v, decode (encodeI24 0x03 v) = .ok (.lda v)) ∧
  (∀ v, decode (encodeI16 0x04 v) = .ok (.ldm v)) ∧
  (∀ s, exec .nop s = .next (reply s s.unit 0 0)) ∧
  (∀ s rows cols,
    exec (.setdim rows cols) s = .next (reply s { s.unit with kdim := ⟨rows, cols⟩ } 0 0)) ∧
  (∀ s v, ∃ a : Word, exec (.lda v) s = .next (reply s { s.unit with a := a } 0 0) ∧
    a.toInt = v.toInt) ∧
  (∀ s v, ∃ m : Word, exec (.ldm v) s = .next (reply s { s.unit with modulus := m } 0 0) ∧
    m.toNat = v.toNat)

/-- LDK in every state: with `r` and `c` in 0 … 2 the entry `(r, c)` of `K` becomes `imm8`, the other
eight entries and everything else stay, response `(0, 0)` (R102); with `r = 3` or `c = 3` it is
`IllegalCommand` and nothing changes (30_encoding.md R79 (b); that a term with such an index answers
this is log entry 7). -/
def Obligations.LdkLoadsOneKeyEntry : Prop :=
  ∀ (s : State) (r c : BitVec 2) (v : BitVec 8),
    (r ≠ 3 → c ≠ 3 → decode (encodeE 0x02 r c v) = .ok (.ldk r c v)) ∧
    (r ≠ 3 → c ≠ 3 → ∃ k, exec (.ldk r c v) s = .next (reply s { s.unit with k := k } 0 0) ∧
      ∀ i j : Fin 3, matGet k i j =
        if i.val = r.toNat ∧ j.val = c.toNat then v else matGet s.unit.k i j) ∧
    (r = 3 ∨ c = 3 → exec (.ldk r c v) s = .next (replyError s 7))

/-- LDB: below `MSGCAP` the byte of `MSG` at `addr` becomes `imm8` and every other byte and item stays,
response `(0, 0)`; at or above `MSGCAP` it is `BufferRange` (8) and nothing changes (R105). -/
def Obligations.LdbStoresOneMessageByte : Prop :=
  ∀ (s : State) (addr : BitVec 16) (v : BitVec 8), Memory.wf s.unit.msg = true →
    decode (encodeB 0x05 addr v) = .ok (.ldb addr v) ∧
    (addr.toNat < Config.msgCap →
      ∃ m, exec (.ldb addr v) s = .next (reply s { s.unit with msg := m } 0 0) ∧
        ∀ a, Memory.read m a = if a = addr.toNat then v else Memory.read s.unit.msg a) ∧
    (Config.msgCap ≤ addr.toNat → exec (.ldb addr v) s = .next (replyError s 8))

/-- SETLEN: up to `MSGCAP` the length is written and everything else stays, response `(0, 0)`; above
it is `BufferRange` (8) and nothing changes (R106). -/
def Obligations.SetlenWritesABoundedLength : Prop :=
  ∀ (s : State) (v : BitVec 16),
    decode (encodeI16 0x06 v) = .ok (.setlen v) ∧
    (v.toNat ≤ Config.msgCap →
      exec (.setlen v) s = .next (reply s { s.unit with msgLen := v } 0 0)) ∧
    (Config.msgCap < v.toNat → exec (.setlen v) s = .next (replyError s 8))

/-- RDDIM, RDA, RDM, RDLEN, RDOLEN in every state: the register's value in the response, nothing
written (R107, R109, R110, R113, R114). -/
def Obligations.RegisterReadsReturnTheRegister : Prop :=
  ∀ s : State,
    decode 0x10000000 = .ok .rddim ∧ decode 0x12000000 = .ok .rda ∧
    decode 0x13000000 = .ok .rdm ∧ decode 0x16000000 = .ok .rdlen ∧
    decode 0x17000000 = .ok .rdolen ∧
    (∃ d, exec .rddim s = .next (reply s s.unit 0 d) ∧
      d.toNat = s.unit.kdim.cols.toNat * 16 + s.unit.kdim.rows.toNat) ∧
    exec .rda s = .next (reply s s.unit 0 s.unit.a) ∧
    exec .rdm s = .next (reply s s.unit 0 s.unit.modulus) ∧
    (∃ d, exec .rdlen s = .next (reply s s.unit 0 d) ∧ d.toNat = s.unit.msgLen.toNat) ∧
    (∃ d, exec .rdolen s = .next (reply s s.unit 0 d) ∧ d.toNat = s.unit.outLen.toNat)

/-- RDK, RDADJ, RDINV in every state, whatever `KDIM` says: the entry in the response, nothing written
(R108, R111, R112); an index of 3 is `IllegalCommand` (30_encoding.md R79 (b); that a term with such an
index answers this is log entry 7). -/
def Obligations.MatrixReadsReturnTheEntry : Prop :=
  ∀ (s : State) (r c : BitVec 2),
    (r ≠ 3 → c ≠ 3 → decode (encodeER 0x11 r c) = .ok (.rdk r c) ∧
      decode (encodeER 0x14 r c) = .ok (.rdadj r c) ∧
      decode (encodeER 0x15 r c) = .ok (.rdinv r c)) ∧
    (∀ i j : Fin 3, r.toNat = i.val → c.toNat = j.val →
      (∃ d, exec (.rdk r c) s = .next (reply s s.unit 0 d) ∧
        d.toNat = (matGet s.unit.k i j).toNat) ∧
      (∃ d, exec (.rdadj r c) s = .next (reply s s.unit 0 d) ∧
        d.toNat = (matGet s.unit.adj i j).toNat) ∧
      (∃ d, exec (.rdinv r c) s = .next (reply s s.unit 0 d) ∧
        d.toNat = (matGet s.unit.inv i j).toNat)) ∧
    (r = 3 ∨ c = 3 →
      exec (.rdk r c) s = .next (replyError s 7) ∧ exec (.rdadj r c) s = .next (replyError s 7) ∧
      exec (.rdinv r c) s = .next (replyError s 7))

/-- RDB and RDO: the byte in the response below the capacity (`MSGCAP`, `MSGCAP + 2`), `BufferRange`
(8) at and above it; nothing written (R115, R116, 20_memory.md R62). -/
def Obligations.BufferReadsReturnTheByte : Prop :=
  ∀ (s : State) (addr : BitVec 16),
    decode (encodeBR 0x18 addr) = .ok (.rdb addr) ∧ decode (encodeBR 0x19 addr) = .ok (.rdo addr) ∧
    (addr.toNat < Config.msgCap → ∃ d, exec (.rdb addr) s = .next (reply s s.unit 0 d) ∧
      d.toNat = (Memory.read s.unit.msg addr.toNat).toNat) ∧
    (Config.msgCap ≤ addr.toNat → exec (.rdb addr) s = .next (replyError s 8)) ∧
    (addr.toNat < Config.msgCap + 2 → ∃ d, exec (.rdo addr) s = .next (reply s s.unit 0 d) ∧
      d.toNat = (Memory.read s.unit.out addr.toNat).toNat) ∧
    (Config.msgCap + 2 ≤ addr.toNat → exec (.rdo addr) s = .next (replyError s 8))

/-! ## Key validation, determinant, invertibility (41_determinant.md) -/

/-- Every key either is valid, of exactly one order, or has exactly one error (R130): the two never
hold together and one of them always does. -/
def Obligations.EveryKeyIsValidOrHasOneError : Prop :=
  ∀ u : UnitState,
    (∃! n, ValidKey n u) ∧ (¬ ∃ code, KeyError u code) ∨
    (¬ ∃ n, ValidKey n u) ∧ (∃! code, KeyError u code)

/-- An invalid key fails each of the seven key-consuming commands with its code, nothing written, in
every state, whatever the message holds (R130, 60_exceptions.md R222, R223). -/
def Obligations.InvalidKeyFailsEveryKeyCommand : Prop :=
  ∀ (s : State) (code : BitVec 8), KeyError s.unit code →
    ∀ i ∈ [Instr.valk, .det, .chkinv, .adj, .kinv, .enc, .dec],
      exec i s = .next (replyError s code)

/-- VALK on a valid key returns its order, on an invalid one the key's error; it writes nothing
(R130, R134). -/
def Obligations.ValkReturnsTheOrder : Prop :=
  decode 0x20000000 = .ok .valk ∧
  ∀ s : State,
    (∀ n, ValidKey n s.unit → ∃ d, exec .valk s = .next (reply s s.unit 0 d) ∧ d.toNat = n) ∧
    ∀ code, KeyError s.unit code → exec .valk s = .next (replyError s code)

/-- DET on a valid key returns, as a two's complement value, the exact determinant, singular or not; on
an invalid one the key's error; it writes nothing (R131, R132, R135). -/
def Obligations.DetReturnsTheDeterminant : Prop :=
  decode 0x21000000 = .ok .det ∧
  ∀ s : State,
    (∀ n, ValidKey n s.unit →
      ∃ d, exec .det s = .next (reply s s.unit 0 d) ∧ d.toInt = keyDet n s.unit) ∧
    ∀ code, KeyError s.unit code → exec .det s = .next (replyError s code)

/-- The range of the determinant of a valid key: its bounds, that the bounds of order 3 are reached, and
that the determinant fits the 32-bit response data (R133). -/
def Obligations.DeterminantStaysInRange : Prop :=
  (∀ u : UnitState,
    (ValidKey 2 u → -625 ≤ keyDet 2 u ∧ keyDet 2 u ≤ 625) ∧
    (ValidKey 3 u → -31250 ≤ keyDet 3 u ∧ keyDet 3 u ≤ 31250) ∧
    ∀ n, ValidKey n u → (BitVec.ofInt 32 (keyDet n u)).toInt = keyDet n u) ∧
  (∃ u, ValidKey 3 u ∧ u.k = ⟨⟨0, 25, 25⟩, ⟨25, 0, 25⟩, ⟨25, 25, 0⟩⟩ ∧ keyDet 3 u = 31250) ∧
  ∃ u, ValidKey 3 u ∧ keyDet 3 u = -31250

/-- CHKINV on a valid key: with the reduced determinant among the twelve residues of R136, which are
those other than 0 and coprime to 26, it returns that residue; otherwise it is `NotInvertible` (3). On an
invalid key it is the key's error. Nothing is written (R136, R137). -/
def Obligations.ChkinvReturnsTheReducedDeterminant : Prop :=
  decode 0x22000000 = .ok .chkinv ∧
  ∀ s : State,
    (∀ n, ValidKey n s.unit →
      (keyDet n s.unit % 26 ∈ [1, 3, 5, 7, 9, 11, 15, 17, 19, 21, 23, 25] ↔
        keyDet n s.unit % 26 ≠ 0 ∧ Int.gcd (keyDet n s.unit % 26) 26 = 1) ∧
      (keyDet n s.unit % 26 ∈ [1, 3, 5, 7, 9, 11, 15, 17, 19, 21, 23, 25] →
        ∃ d, exec .chkinv s = .next (reply s s.unit 0 d) ∧
          (d.toNat : Int) = keyDet n s.unit % 26) ∧
      (keyDet n s.unit % 26 ∉ [1, 3, 5, 7, 9, 11, 15, 17, 19, 21, 23, 25] →
        exec .chkinv s = .next (replyError s 3))) ∧
    ∀ code, KeyError s.unit code → exec .chkinv s = .next (replyError s code)

/-! ## Modular arithmetic (42_modular_inverse.md) -/

/-- GCD in every state returns the greatest common divisor of `abs(signed(A))` and `MOD`: 0 where both
are 0, and otherwise the largest common divisor; nothing is written (R150, R153). -/
def Obligations.GcdReturnsTheGreatestCommonDivisor : Prop :=
  decode 0x23000000 = .ok .gcd ∧
  ∀ s : State, ∃ g, exec .gcd s = .next (reply s s.unit 0 g) ∧
    (s.unit.a = 0 → s.unit.modulus = 0 → g = 0) ∧
    (s.unit.a ≠ 0 ∨ s.unit.modulus ≠ 0 →
      1 ≤ g.toNat ∧ g.toNat ∣ s.unit.a.toInt.natAbs ∧ g.toNat ∣ s.unit.modulus.toNat ∧
      ∀ e, e ∣ s.unit.a.toInt.natAbs → e ∣ s.unit.modulus.toNat → e ≤ g.toNat)

/-- MODINV: any `x` in `[1, MOD − 1]` with `(A * x) mod MOD = 1` is what it returns; where there is none
it is `NoModularInverse` (4); nothing is written (R151, R154). -/
def Obligations.ModinvReturnsTheInverse : Prop :=
  decode 0x24000000 = .ok .modinv ∧
  ∀ s : State,
    (∀ x : Nat, 1 ≤ x → x < s.unit.modulus.toNat →
      (s.unit.a.toInt * x) % (s.unit.modulus.toNat : Int) = 1 →
      ∃ d, exec .modinv s = .next (reply s s.unit 0 d) ∧ d.toNat = x) ∧
    ((∀ x : Nat, 1 ≤ x → x < s.unit.modulus.toNat →
      (s.unit.a.toInt * x) % (s.unit.modulus.toNat : Int) ≠ 1) →
      exec .modinv s = .next (replyError s 4))

/-- MODINV succeeds exactly when `MOD` is at least 2 and coprime to `A` (R152): then it returns an
inverse in `[1, MOD − 1]`, else it is `NoModularInverse`. -/
def Obligations.ModinvSucceedsExactlyWhenCoprime : Prop :=
  ∀ s : State,
    (2 ≤ s.unit.modulus.toNat → Nat.gcd s.unit.a.toInt.natAbs s.unit.modulus.toNat = 1 →
      ∃ d, exec .modinv s = .next (reply s s.unit 0 d) ∧ 1 ≤ d.toNat ∧
        d.toNat < s.unit.modulus.toNat ∧
        (s.unit.a.toInt * d.toNat) % (s.unit.modulus.toNat : Int) = 1) ∧
    (s.unit.modulus.toNat < 2 ∨ Nat.gcd s.unit.a.toInt.natAbs s.unit.modulus.toNat ≠ 1 →
      exec .modinv s = .next (replyError s 4))

/-- `NoModularInverse` (4) is never returned by a command other than MODINV: the test inside `keyinv`
never fails (43_adjugate_inverse.md R175). -/
def Obligations.NoModularInverseComesOnlyFromModinv : Prop :=
  ∀ (i : Instr) (s : State) (u : UnitState) (data : Word),
    exec i s = .next (reply s u 4 data) → i = .modinv

/-! ## Adjugate and inverse (43_adjugate_inverse.md) -/

/-- ADJ on a valid key of order `n` writes all nine entries of `ADJ`: inside the order the signed
cofactor at the transposed position, reduced modulo 26; outside 0; and nothing else; response `(0, 0)`,
whether or not the key is invertible. On an invalid key it is the key's error and nothing changes
(R170, R171, R172). -/
def Obligations.AdjWritesTheAdjugate : Prop :=
  decode 0x25000000 = .ok .adj ∧
  ∀ s : State,
    (∀ n, ValidKey n s.unit →
      ∃ J, exec .adj s = .next (reply s { s.unit with adj := J } 0 0) ∧
        ∀ r c : Fin 3, ((matGet J r c).toNat : Int) =
          if r.val < n ∧ c.val < n then keyCofactor n s.unit r c % 26 else 0) ∧
    ∀ code, KeyError s.unit code → exec .adj s = .next (replyError s code)

/-- The adjugate ADJ writes, times the key, is the determinant times the identity, modulo 26, on both
sides (the identity R176 (a) rests on). -/
def Obligations.AdjugateTimesKeyIsTheDeterminant : Prop :=
  ∀ (s t : State) (n : Nat), ValidKey n s.unit → exec .adj s = .next t →
    ∀ r c : Fin 3, r.val < n → c.val < n →
      let J := fun r c => ((matGet t.unit.adj r c).toNat : Int)
      entryProduct n (keyAt s.unit) J r c % 26 = (if r = c then keyDet n s.unit else 0) % 26 ∧
      entryProduct n J (keyAt s.unit) r c % 26 = (if r = c then keyDet n s.unit else 0) % 26

/-- KINV on a valid key: with a determinant coprime to 26 it writes, inside the order, the inverse `x`
of the determinant times the reduced adjugate, reduced modulo 26, 0 outside, and nothing else, response
`(0, 0)`; otherwise it is `NotInvertible` (3). On an invalid key it is the key's error. On an error
nothing changes (R173, R174). -/
def Obligations.KinvWritesTheScaledAdjugate : Prop :=
  decode 0x26000000 = .ok .kinv ∧
  ∀ s : State,
    (∀ n, ValidKey n s.unit →
      (Int.gcd (keyDet n s.unit) 26 = 1 → ∃ x : Nat, 1 ≤ x ∧ x ≤ 25 ∧
        (keyDet n s.unit * x) % 26 = 1 ∧
        ∃ V, exec .kinv s = .next (reply s { s.unit with inv := V } 0 0) ∧
          ∀ r c : Fin 3, ((matGet V r c).toNat : Int) =
            if r.val < n ∧ c.val < n then (x * (keyCofactor n s.unit r c % 26)) % 26 else 0) ∧
      (Int.gcd (keyDet n s.unit) 26 ≠ 1 → exec .kinv s = .next (replyError s 3))) ∧
    ∀ code, KeyError s.unit code → exec .kinv s = .next (replyError s code)

/-- What KINV writes is the inverse of the key modulo 26, on both sides (R176 (a)). -/
def Obligations.KinvWritesTheInverseModulo26 : Prop :=
  ∀ (s : State) (n : Nat), ValidKey n s.unit → Int.gcd (keyDet n s.unit) 26 = 1 →
    ∃ V, exec .kinv s = .next (reply s { s.unit with inv := V } 0 0) ∧
      ∀ r c : Fin 3, r.val < n → c.val < n →
        let X := fun r c => ((matGet V r c).toNat : Int)
        entryProduct n (keyAt s.unit) X r c % 26 = (if r = c then 1 else 0) ∧
        entryProduct n X (keyAt s.unit) r c % 26 = (if r = c then 1 else 0)

/-- Inverting twice gives the key back: with the inverse KINV wrote loaded as the key, KINV succeeds
and writes the first key's entries inside the order (R176 (b)). -/
def Obligations.KinvIsAnInvolution : Prop :=
  ∀ (s t s' : State) (n : Nat), ValidKey n s.unit → Int.gcd (keyDet n s.unit) 26 = 1 →
    exec .kinv s = .next t → s'.unit.kdim = s.unit.kdim → s'.unit.k = t.unit.inv →
    ValidKey n s'.unit ∧ Int.gcd (keyDet n s'.unit) 26 = 1 ∧
      ∃ V, exec .kinv s' = .next (reply s' { s'.unit with inv := V } 0 0) ∧
        ∀ r c : Fin 3, r.val < n → c.val < n → matGet V r c = matGet s.unit.k r c

/-! ## Encryption and decryption (44_cipher.md) -/

/-- ENC with a valid key of order `n` and a legal message: the result is the preprocessed message
padded with 25 to the next multiple of `n`, each block multiplied by the key modulo 26, as letters from
`OUT[0]` on; `OUTLEN` and the response hold its length; the bytes of `OUT` behind it and everything
else stay (R191 to R194, R196, R198 (a)). Invertibility plays no part. -/
def Obligations.EncWritesTheCiphertext : Prop :=
  ∀ (s : State) (n : Nat), ValidKey n s.unit → s.unit.msgLen.toNat ≤ Config.msgCap →
    Memory.wf s.unit.out = true → (∀ b ∈ messageBytes s.unit, LegalByte b) →
    ∃ m l d, exec .enc s = .next (reply s { s.unit with out := m, outLen := l } 0 d) ∧
      l.toNat = paddedLength n (messageLetters s.unit).length ∧ d.toNat = l.toNat ∧
      (∀ a, a < l.toNat → ((Memory.read m a).toNat : Int) =
        0x41 + blockProductAt n (keyAt s.unit) (paddedAt (messageLetters s.unit)) a) ∧
      ∀ a, l.toNat ≤ a → Memory.read m a = Memory.read s.unit.out a

/-- DEC with a valid invertible key of order `n` and a legal message whose preprocessed length is a
multiple of `n` completes: each block multiplied by the inverse of the key modulo 26, which is the matrix
`V` that KINV writes in the same state, as letters from `OUT[0]` on; `OUTLEN` and the response hold its
length; the bytes of `OUT` behind it and everything else, `INV` too, stay (R197, 43_adjugate_inverse.md
R173, R174). -/
def Obligations.DecWritesThePlaintext : Prop :=
  ∀ (s : State) (n : Nat), ValidKey n s.unit → Int.gcd (keyDet n s.unit) 26 = 1 →
    s.unit.msgLen.toNat ≤ Config.msgCap → Memory.wf s.unit.out = true →
    (∀ b ∈ messageBytes s.unit, LegalByte b) → n ∣ (messageLetters s.unit).length →
    ∃ m l d V, exec .dec s = .next (reply s { s.unit with out := m, outLen := l } 0 d) ∧
      exec .kinv s = .next (reply s { s.unit with inv := V } 0 0) ∧
      l.toNat = (messageLetters s.unit).length ∧ d.toNat = l.toNat ∧
      (∀ a, a < l.toNat → ((Memory.read m a).toNat : Int) =
        0x41 + blockProductAt n (fun r c => ((matGet V r c).toNat : Int))
          (fun k => (messageLetters s.unit).getD k 0) a) ∧
      ∀ a, l.toNat ≤ a → Memory.read m a = Memory.read s.unit.out a

/-- The errors of ENC and DEC with a valid key, in their priority (60_exceptions.md R223; 44_cipher.md
R196, R197): a byte that is neither letter nor space is `InvalidAlphabet` (5) for both; for DEC then a
length that is no multiple of `n` is `LengthMismatch` (6), whether or not the key is invertible; then a
determinant not coprime to 26 is `NotInvertible` (3), also for the empty message. Nothing changes. -/
def Obligations.CipherErrorsComeInOrder : Prop :=
  ∀ (s : State) (n : Nat), ValidKey n s.unit → s.unit.msgLen.toNat ≤ Config.msgCap →
    ((∃ b ∈ messageBytes s.unit, ¬ LegalByte b) →
      exec .enc s = .next (replyError s 5) ∧ exec .dec s = .next (replyError s 5)) ∧
    ((∀ b ∈ messageBytes s.unit, LegalByte b) →
      (¬ n ∣ (messageLetters s.unit).length → exec .dec s = .next (replyError s 6)) ∧
      (n ∣ (messageLetters s.unit).length → Int.gcd (keyDet n s.unit) 26 ≠ 1 →
        exec .dec s = .next (replyError s 3)))

/-- Round trip (44_cipher.md R198 (b)): after an ENC under a valid invertible key, DEC on any state that
holds the same key, and the ciphertext as its message, succeeds and leaves in `OUT` exactly the first
message, preprocessed and padded, as letters. -/
def Obligations.DecryptingTheCiphertextGivesThePaddedMessage : Prop :=
  ∀ (s t s' : State) (n : Nat), ValidKey n s.unit → Int.gcd (keyDet n s.unit) 26 = 1 →
    s.unit.msgLen.toNat ≤ Config.msgCap → Memory.wf s.unit.out = true →
    (∀ b ∈ messageBytes s.unit, LegalByte b) → exec .enc s = .next t →
    s'.unit.kdim = s.unit.kdim → s'.unit.k = s.unit.k → Memory.wf s'.unit.out = true →
    s'.unit.msgLen = t.unit.outLen → s'.unit.msgLen.toNat ≤ Config.msgCap →
    (∀ a, a < t.unit.outLen.toNat → Memory.read s'.unit.msg a = Memory.read t.unit.out a) →
    ∃ m, exec .dec s' =
        .next (reply s' { s'.unit with out := m, outLen := t.unit.outLen } 0
          (BitVec.ofNat 32 t.unit.outLen.toNat)) ∧
      t.unit.outLen.toNat = paddedLength n (messageLetters s.unit).length ∧
      ∀ a, a < t.unit.outLen.toNat →
        ((Memory.read m a).toNat : Int) = 0x41 + paddedAt (messageLetters s.unit) a
end

