-- ==== Sys2Proof/Laws/Matrix.lean ====
section
/-! SUPPORT. Matrix registers: reading what `matOf` and `matSet` build, and when two arrays are equal. -/

namespace Sys2Proof.Machine

@[simp] theorem get_matOf {α : Type} (f : Fin 3 → Fin 3 → α) (r c : Fin 3) :
    matGet (matOf f) r c = f r c := by
  fin_cases r <;> fin_cases c <;> rfl

theorem get_set {α : Type} (t : Triple α) (i j : Fin 3) (v : α) :
    (t.set i v).get j = if j = i then v else t.get j := by
  fin_cases i <;> fin_cases j <;> rfl

theorem matGet_matSet {α : Type} (M : Mat3 α) (r c i j : Fin 3) (v : α) :
    matGet (matSet M r c v) i j = if i = r ∧ j = c then v else matGet M i j := by
  simp only [matGet, matSet, get_set]
  by_cases hi : i = r <;> by_cases hj : j = c <;> simp [hi, hj, get_set]

theorem mat_ext {α : Type} {M N : Mat3 α} (h : ∀ r c, matGet M r c = matGet N r c) : M = N := by
  obtain ⟨⟨a, b, c⟩, ⟨d, e, f⟩, ⟨g, h', i⟩⟩ := M
  obtain ⟨⟨a', b', c'⟩, ⟨d', e', f'⟩, ⟨g', h'', i'⟩⟩ := N
  have := fun r c => h r c
  simp only [Triple.mk.injEq]
  exact ⟨⟨h 0 0, h 0 1, h 0 2⟩, ⟨h 1 0, h 1 1, h 1 2⟩, h 2 0, h 2 1, h 2 2⟩

theorem matGet_resultMatrix (n : Order) (M : Mat3 Int) (r c : Fin 3) :
    matGet (resultMatrix n M) r c =
      if r.val < orderNat n ∧ c.val < orderNat n then BitVec.ofInt 8 (matGet M r c) else 0 := by
  simp [resultMatrix]

@[simp] theorem matGet_zeroMatrix (r c : Fin 3) : matGet zeroMatrix r c = 0 := by
  fin_cases r <;> fin_cases c <;> rfl

end Sys2Proof.Machine
end

