-- ==== Sys2Proof/Laws/State.lean ====
section
/-! SUPPORT. What each update of the state does to each field: one lemma per field per update, so that
no later proof unfolds a record update. -/

namespace Sys2Proof.Machine

section
variable (u : UnitState) (rows cols : BitVec 4)
@[simp] theorem setKdim_kdim : (u.setKdim rows cols).kdim = ⟨rows, cols⟩ := rfl
@[simp] theorem setKdim_k : (u.setKdim rows cols).k = u.k := rfl
@[simp] theorem setKdim_a : (u.setKdim rows cols).a = u.a := rfl
@[simp] theorem setKdim_modulus : (u.setKdim rows cols).modulus = u.modulus := rfl
@[simp] theorem setKdim_adj : (u.setKdim rows cols).adj = u.adj := rfl
@[simp] theorem setKdim_inv : (u.setKdim rows cols).inv = u.inv := rfl
@[simp] theorem setKdim_msg : (u.setKdim rows cols).msg = u.msg := rfl
@[simp] theorem setKdim_msgLen : (u.setKdim rows cols).msgLen = u.msgLen := rfl
@[simp] theorem setKdim_out : (u.setKdim rows cols).out = u.out := rfl
@[simp] theorem setKdim_outLen : (u.setKdim rows cols).outLen = u.outLen := rfl
end

section
variable (u : UnitState) (r c : Fin 3) (v : Byte)
@[simp] theorem setK_kdim : (u.setK r c v).kdim = u.kdim := rfl
@[simp] theorem setK_k : (u.setK r c v).k = matSet u.k r c v := rfl
@[simp] theorem setK_a : (u.setK r c v).a = u.a := rfl
@[simp] theorem setK_modulus : (u.setK r c v).modulus = u.modulus := rfl
@[simp] theorem setK_adj : (u.setK r c v).adj = u.adj := rfl
@[simp] theorem setK_inv : (u.setK r c v).inv = u.inv := rfl
@[simp] theorem setK_msg : (u.setK r c v).msg = u.msg := rfl
@[simp] theorem setK_msgLen : (u.setK r c v).msgLen = u.msgLen := rfl
@[simp] theorem setK_out : (u.setK r c v).out = u.out := rfl
@[simp] theorem setK_outLen : (u.setK r c v).outLen = u.outLen := rfl
end

section
variable (u : UnitState) (v : Word)
@[simp] theorem setA_kdim : (u.setA v).kdim = u.kdim := rfl
@[simp] theorem setA_k : (u.setA v).k = u.k := rfl
@[simp] theorem setA_a : (u.setA v).a = v := rfl
@[simp] theorem setA_modulus : (u.setA v).modulus = u.modulus := rfl
@[simp] theorem setA_adj : (u.setA v).adj = u.adj := rfl
@[simp] theorem setA_inv : (u.setA v).inv = u.inv := rfl
@[simp] theorem setA_msg : (u.setA v).msg = u.msg := rfl
@[simp] theorem setA_msgLen : (u.setA v).msgLen = u.msgLen := rfl
@[simp] theorem setA_out : (u.setA v).out = u.out := rfl
@[simp] theorem setA_outLen : (u.setA v).outLen = u.outLen := rfl
end

section
variable (u : UnitState) (v : Word)
@[simp] theorem setModulus_kdim : (u.setModulus v).kdim = u.kdim := rfl
@[simp] theorem setModulus_k : (u.setModulus v).k = u.k := rfl
@[simp] theorem setModulus_a : (u.setModulus v).a = u.a := rfl
@[simp] theorem setModulus_modulus : (u.setModulus v).modulus = v := rfl
@[simp] theorem setModulus_adj : (u.setModulus v).adj = u.adj := rfl
@[simp] theorem setModulus_inv : (u.setModulus v).inv = u.inv := rfl
@[simp] theorem setModulus_msg : (u.setModulus v).msg = u.msg := rfl
@[simp] theorem setModulus_msgLen : (u.setModulus v).msgLen = u.msgLen := rfl
@[simp] theorem setModulus_out : (u.setModulus v).out = u.out := rfl
@[simp] theorem setModulus_outLen : (u.setModulus v).outLen = u.outLen := rfl
end

section
variable (u : UnitState) (M : Mat3 Byte)
@[simp] theorem setAdj_kdim : (u.setAdj M).kdim = u.kdim := rfl
@[simp] theorem setAdj_k : (u.setAdj M).k = u.k := rfl
@[simp] theorem setAdj_a : (u.setAdj M).a = u.a := rfl
@[simp] theorem setAdj_modulus : (u.setAdj M).modulus = u.modulus := rfl
@[simp] theorem setAdj_adj : (u.setAdj M).adj = M := rfl
@[simp] theorem setAdj_inv : (u.setAdj M).inv = u.inv := rfl
@[simp] theorem setAdj_msg : (u.setAdj M).msg = u.msg := rfl
@[simp] theorem setAdj_msgLen : (u.setAdj M).msgLen = u.msgLen := rfl
@[simp] theorem setAdj_out : (u.setAdj M).out = u.out := rfl
@[simp] theorem setAdj_outLen : (u.setAdj M).outLen = u.outLen := rfl
end

section
variable (u : UnitState) (M : Mat3 Byte)
@[simp] theorem setInv_kdim : (u.setInv M).kdim = u.kdim := rfl
@[simp] theorem setInv_k : (u.setInv M).k = u.k := rfl
@[simp] theorem setInv_a : (u.setInv M).a = u.a := rfl
@[simp] theorem setInv_modulus : (u.setInv M).modulus = u.modulus := rfl
@[simp] theorem setInv_adj : (u.setInv M).adj = u.adj := rfl
@[simp] theorem setInv_inv : (u.setInv M).inv = M := rfl
@[simp] theorem setInv_msg : (u.setInv M).msg = u.msg := rfl
@[simp] theorem setInv_msgLen : (u.setInv M).msgLen = u.msgLen := rfl
@[simp] theorem setInv_out : (u.setInv M).out = u.out := rfl
@[simp] theorem setInv_outLen : (u.setInv M).outLen = u.outLen := rfl
end

section
variable (u : UnitState) (v : BitVec 16)
@[simp] theorem setMsgLen_kdim : (u.setMsgLen v).kdim = u.kdim := rfl
@[simp] theorem setMsgLen_k : (u.setMsgLen v).k = u.k := rfl
@[simp] theorem setMsgLen_a : (u.setMsgLen v).a = u.a := rfl
@[simp] theorem setMsgLen_modulus : (u.setMsgLen v).modulus = u.modulus := rfl
@[simp] theorem setMsgLen_adj : (u.setMsgLen v).adj = u.adj := rfl
@[simp] theorem setMsgLen_inv : (u.setMsgLen v).inv = u.inv := rfl
@[simp] theorem setMsgLen_msg : (u.setMsgLen v).msg = u.msg := rfl
@[simp] theorem setMsgLen_msgLen : (u.setMsgLen v).msgLen = v := rfl
@[simp] theorem setMsgLen_out : (u.setMsgLen v).out = u.out := rfl
@[simp] theorem setMsgLen_outLen : (u.setMsgLen v).outLen = u.outLen := rfl
end

section
variable (s : State) (u u' : UnitState) (r : Response)
@[simp] theorem withUnit_unit : (s.withUnit u).unit = u := rfl
@[simp] theorem withUnit_inputs : (s.withUnit u).inputs = s.inputs := rfl
@[simp] theorem withUnit_responses : (s.withUnit u).responses = s.responses := rfl
@[simp] theorem withUnit_withUnit : (s.withUnit u).withUnit u' = s.withUnit u' := rfl
@[simp] theorem addResponse_unit : (s.addResponse r).unit = s.unit := rfl
@[simp] theorem addResponse_inputs : (s.addResponse r).inputs = s.inputs := rfl
@[simp] theorem addResponse_responses : (s.addResponse r).responses = s.responses ++ [r] := rfl
@[simp] theorem hostReset_unit : (hostReset s).unit = UnitState.reset := rfl
@[simp] theorem hostReset_inputs : (hostReset s).inputs = s.inputs := rfl
@[simp] theorem hostReset_responses : (hostReset s).responses = s.responses := rfl
@[simp] theorem presentWord_unit (w : Word) : (presentWord s w).unit = s.unit := rfl
@[simp] theorem presentWord_inputs (w : Word) : (presentWord s w).inputs = .command w :: s.inputs := rfl
@[simp] theorem presentWord_responses (w : Word) : (presentWord s w).responses = s.responses := rfl
end

end Sys2Proof.Machine
end

