-- ==== Sys2Proof/Laws/Ops.lean ====
section
/-! SUPPORT. What the shared operations answer: each has one lemma that says everything it can do, and
the forms a proof rewrites with. -/

namespace Sys2Proof.Machine

section
variable {α : Type} (s : State)

/-- `respond` is the answer with code 0 over the unit state its argument holds. -/
theorem respond_eq (d : Word) : respond d s = .next (reply s s.unit 0 d) := rfl

@[simp] theorem respond_withUnit (d : Word) (u : UnitState) :
    respond d (s.withUnit u) = .next (reply s u 0 d) := rfl

/-- `raise` leaves the unit as it was. -/
theorem raise_eq (e : ErrorKind) : raise e s = .next (replyError s e.code) := rfl

@[simp] theorem rejectWord_eq : rejectWord s = .next (replyError s 7) := rfl

@[simp] theorem orRaise_ok (a : α) (f : α → Result) : orRaise (.ok a) s f = f a := rfl
@[simp] theorem orRaise_error (e : ErrorKind) (f : α → Result) :
    orRaise (.error e) s f = .next (replyError s e.code) := rfl
@[simp] theorem orElseRaise_some (a : α) (e : ErrorKind) (f : α → Result) :
    orElseRaise (some a) e s f = f a := rfl
@[simp] theorem orElseRaise_none (e : ErrorKind) (f : α → Result) :
    orElseRaise none e s f = .next (replyError s e.code) := rfl
@[simp] theorem orOutside_some (a : α) (f : α → Result) : orOutside (some a) f = f a := rfl
@[simp] theorem orOutside_none (f : α → Result) :
    orOutside (none : Option α) f = .fault .outsideBuffer := rfl

/-- All that `orRaise` can do. -/
theorem orRaise_cases (r : Except ErrorKind α) (f : α → Result) :
    (∃ a, r = .ok a ∧ orRaise r s f = f a) ∨
      (∃ e, r = .error e ∧ orRaise r s f = .next (replyError s e.code)) := by
  cases r with
  | ok a => exact .inl ⟨a, rfl, rfl⟩
  | error e => exact .inr ⟨e, rfl, rfl⟩

/-- All that `orElseRaise` can do. -/
theorem orElseRaise_cases (r : Option α) (e : ErrorKind) (f : α → Result) :
    (∃ a, r = some a ∧ orElseRaise r e s f = f a) ∨
      (r = none ∧ orElseRaise r e s f = .next (replyError s e.code)) := by
  cases r with
  | some a => exact .inl ⟨a, rfl, rfl⟩
  | none => exact .inr ⟨rfl, rfl⟩

/-- All that `orOutside` can do. -/
theorem orOutside_cases (r : Option α) (f : α → Result) :
    (∃ a, r = some a ∧ orOutside r f = f a) ∨
      (r = none ∧ orOutside r f = .fault .outsideBuffer) := by
  cases r with
  | some a => exact .inl ⟨a, rfl, rfl⟩
  | none => exact .inr ⟨rfl, rfl⟩

end

section
variable (s : State) (u : UnitState) (code : BitVec 8) (data : Word)
@[simp] theorem reply_unit : (reply s u code data).unit = u := rfl
@[simp] theorem reply_inputs : (reply s u code data).inputs = s.inputs := rfl
@[simp] theorem reply_responses : (reply s u code data).responses = s.responses ++ [⟨code, data⟩] := rfl
@[simp] theorem replyError_unit : (replyError s code).unit = s.unit := rfl
@[simp] theorem replyError_inputs : (replyError s code).inputs = s.inputs := rfl
@[simp] theorem replyError_responses : (replyError s code).responses = s.responses ++ [⟨code, 0⟩] := rfl
end

/-- All that an entry command can do: reach the entry its indices name, or be answered `IllegalCommand`. -/
theorem atEntry_cases (r c : BitVec 2) (s : State) (f : Fin 3 → Fin 3 → Result) :
    (∃ i j : Fin 3, r.toNat = i.val ∧ c.toNat = j.val ∧ atEntry r c s f = f i j) ∨
      ((r = 3 ∨ c = 3) ∧ atEntry r c s f = .next (replyError s 7)) := by
  have h : ∀ x : BitVec 2, (x = 3 ∧ entryIndex x = none) ∨
      ∃ i : Fin 3, x.toNat = i.val ∧ entryIndex x = some i := by decide
  rcases h r with ⟨hr, er⟩ | ⟨i, hr, er⟩
  · exact .inr ⟨.inl hr, by simp [atEntry, er, ErrorKind.code]⟩
  · rcases h c with ⟨hc, ec⟩ | ⟨j, hc, ec⟩
    · exact .inr ⟨.inr hc, by simp [atEntry, er, ec, ErrorKind.code]⟩
    · exact .inl ⟨i, j, hr, hc, by simp [atEntry, er, ec]⟩

/-- The host's next event, taken. -/
theorem takeInput_cons (s : State) (e : HostEvent) (rest : List HostEvent) (h : s.inputs = e :: rest) :
    takeInput s = some (e, { s with inputs := rest }) := by simp [takeInput, h]

theorem takeInput_nil (s : State) (h : s.inputs = []) : takeInput s = none := by simp [takeInput, h]

end Sys2Proof.Machine
end

