-- ==== Sys2Proof/Laws/Key.lean ====
section
/-! SUPPORT. What key validation, the determinant, the invertibility test and the adjugate answer, in
the terms of Sys2Proof/Safety.lean. -/

namespace Sys2Proof.Machine

@[simp] theorem matGet_keyMatrix (u : UnitState) (r c : Fin 3) :
    matGet (keyMatrix u) r c = keyAt u r c := by simp [keyMatrix, keyAt]

theorem keyMatrix_eq (u : UnitState) : keyMatrix u =
    ⟨⟨keyAt u 0 0, keyAt u 0 1, keyAt u 0 2⟩, ⟨keyAt u 1 0, keyAt u 1 1, keyAt u 1 2⟩,
      ⟨keyAt u 2 0, keyAt u 2 1, keyAt u 2 2⟩⟩ := rfl

theorem keyAt_nonneg (u : UnitState) (r c : Fin 3) : 0 ≤ keyAt u r c := Int.natCast_nonneg _

theorem orderOf_eq_some (d : BitVec 4) (n : Order) : orderOf d = some n ↔ d.toNat = orderNat n := by
  cases n <;> revert d <;> decide

theorem orderOf_eq_none (d : BitVec 4) : orderOf d = none ↔ d.toNat ≠ 2 ∧ d.toNat ≠ 3 := by
  revert d; decide

theorem orderNat_eq (n : Order) : orderNat n = 2 ∨ orderNat n = 3 := by cases n <;> simp [orderNat]

theorem exists_order {n : Nat} (h : n = 2 ∨ n = 3) : ∃ m, orderNat m = n := by
  rcases h with rfl | rfl
  · exact ⟨.two, rfl⟩
  · exact ⟨.three, rfl⟩

/-- The entry check looks at exactly the entries inside the order. -/
theorem entriesLegal_iff (n : Order) (u : UnitState) : entriesLegal n u.k = true ↔
    ∀ r c : Fin 3, r.val < orderNat n → c.val < orderNat n → keyAt u r c ≤ 25 := by
  have h : ∀ b : Byte, b ≤ Config.maxEntry ↔ (b.toNat : Int) ≤ 25 := by
    intro b
    rw [BitVec.le_def]
    simp only [Config.maxEntry, BitVec.ofNat_eq_ofNat, BitVec.toNat_ofNat]
    omega
  cases n <;> simp [entriesLegal, indices, Fin.forall_fin_succ, orderNat, h, keyAt]

/-- `keycheck` succeeds with `n` exactly on the valid keys of order `n` (41_determinant.md R130). -/
theorem keycheck_ok_iff (u : UnitState) (n : Order) :
    keycheck u = .ok n ↔ ValidKey (orderNat n) u := by
  unfold keycheck ValidKey
  by_cases hsq : u.kdim.rows = u.kdim.cols
  · rw [if_neg (not_not.2 hsq), ← hsq]
    cases ho : orderOf u.kdim.rows with
    | none =>
      have := (orderOf_eq_none _).1 ho
      have := orderNat_eq n
      simp only [reduceCtorEq, false_iff]
      omega
    | some m =>
      have hm := (orderOf_eq_some _ _).1 ho
      by_cases hmn : m = n
      · subst hmn
        simp only [hm, orderNat_eq, true_and]
        rw [← entriesLegal_iff]
        by_cases he : entriesLegal m u.k = true <;> simp [he]
      · have hne : orderNat m ≠ orderNat n := by cases m <;> cases n <;> simp_all [orderNat]
        have : u.kdim.rows.toNat ≠ orderNat n := hm ▸ hne
        by_cases he : entriesLegal m u.k = true <;> simp [he, hmn, this]
  · rw [if_pos hsq]
    have : ¬ (u.kdim.rows.toNat = orderNat n ∧ u.kdim.cols.toNat = orderNat n) := fun h =>
      hsq (BitVec.eq_of_toNat_eq (h.1.trans h.2.symm))
    simp only [reduceCtorEq, false_iff]
    tauto

/-- `keycheck` fails with a kind exactly when the key has that kind's error (R130). -/
theorem keycheck_error (u : UnitState) (e : ErrorKind) (h : keycheck u = .error e) :
    KeyError u e.code := by
  unfold keycheck at h
  unfold KeyError
  by_cases hsq : u.kdim.rows = u.kdim.cols
  · rw [if_neg (not_not.2 hsq)] at h
    cases ho : orderOf u.kdim.rows with
    | none =>
      have h2 := (orderOf_eq_none _).1 ho
      rw [ho] at h
      cases h
      exact .inr (.inl ⟨hsq, h2.1, h2.2, rfl⟩)
    | some m =>
      have hm := (orderOf_eq_some _ _).1 ho
      rw [ho] at h
      by_cases he : entriesLegal m u.k = true
      · simp [he] at h
      · simp only [he] at h
        cases h
        rw [entriesLegal_iff] at he
        push Not at he
        obtain ⟨r, c, hr, hc, hb⟩ := he
        exact .inr (.inr ⟨hsq, hm ▸ orderNat_eq m, ⟨r, c, hm ▸ hr, hm ▸ hc, hb⟩, rfl⟩)
  · rw [if_pos hsq] at h
    cases h
    exact .inl ⟨hsq, rfl⟩

/-- A key with an error is not valid. -/
theorem not_validKey_of_keyError {u : UnitState} {code : BitVec 8} (h : KeyError u code) (n : Nat) :
    ¬ ValidKey n u := by
  rintro ⟨hn, hr, hc, he⟩
  rcases h with ⟨h, -⟩ | ⟨-, h2, h3, -⟩ | ⟨-, -, ⟨r, c, hr', hc', hb⟩, -⟩
  · exact h (BitVec.eq_of_toNat_eq (hr.trans hc.symm))
  · omega
  · have := he r c (hr ▸ hr') (hr ▸ hc')
    omega

/-- A key has one error at most. -/
theorem keyError_unique {u : UnitState} {c c' : BitVec 8} (h : KeyError u c) (h' : KeyError u c') :
    c = c' := by
  rcases h with ⟨h1, rfl⟩ | ⟨h1, h2, h3, rfl⟩ | ⟨h1, h2, -, rfl⟩ <;>
    rcases h' with ⟨h1', rfl⟩ | ⟨h1', h2', h3', rfl⟩ | ⟨h1', h2', -, rfl⟩ <;>
    first
    | rfl
    | exact absurd h1' h1
    | exact absurd h1 h1'
    | omega

/-- `keycheck` on a key with an error raises the kind with its code. -/
theorem keycheck_of_keyError {u : UnitState} {code : BitVec 8} (h : KeyError u code) :
    ∃ e, keycheck u = .error e ∧ e.code = code := by
  cases hk : keycheck u with
  | ok n => exact absurd ((keycheck_ok_iff u n).1 hk) (not_validKey_of_keyError h _)
  | error e => exact ⟨e, rfl, keyError_unique (keycheck_error u e hk) h⟩

/-- `keycheck` on a valid key. -/
theorem keycheck_of_validKey {u : UnitState} {n : Nat} (h : ValidKey n u) :
    ∃ m, orderNat m = n ∧ keycheck u = .ok m := by
  obtain ⟨m, hm⟩ := exists_order h.1
  exact ⟨m, hm, (keycheck_ok_iff u m).2 (hm ▸ h)⟩

/-- `det` on the key registers is the key's determinant (R131, R132). -/
theorem det_keyMatrix (n : Order) (u : UnitState) : det n (keyMatrix u) = keyDet (orderNat n) u := by
  cases n <;> simp [keyMatrix_eq, det, keyDet, orderNat]

@[simp] theorem emod_q (x : Int) : emod x Config.q = x % 26 := rfl

/-- The invertibility test is coprimality to 26 (R136). -/
theorem invertible26_iff (D : Int) : invertible26 D = true ↔ Int.gcd D 26 = 1 := by
  have h1 : Int.gcd (D % 26) 26 = Int.gcd D 26 := Int.gcd_emod D 26
  have h2 : Int.gcd (D % 26) 26 = Nat.gcd (D % 26).toNat 26 := by
    have h : 0 ≤ D % 26 := Int.emod_nonneg _ (by norm_num)
    rw [Int.gcd, Int.toNat_of_nonneg h |> congrArg Int.natAbs |>.symm, Int.natAbs_natCast]
    rfl
  have h3 : Config.q.toNat = 26 := rfl
  simp only [invertible26, gcdOf, emod_q, h3, Bool.and_eq_true, bne_iff_ne, ne_eq, beq_iff_eq,
    ← h2, h1, and_iff_right_iff_imp]
  intro h h0
  rw [← h1, h0] at h
  norm_num at h

/-- The entries of `adj` inside the order (43_adjugate_inverse.md R170, R171). -/
theorem matGet_adj (n : Order) (u : UnitState) (r c : Fin 3) (hr : r.val < orderNat n)
    (hc : c.val < orderNat n) :
    matGet (adj n (keyMatrix u)) r c = keyCofactor (orderNat n) u r c % 26 := by
  cases n
  · fin_cases r <;> fin_cases c <;>
      simp_all [orderNat, adj, keyMatrix_eq, matGet, Triple.get, keyCofactor]
  · fin_cases r <;> fin_cases c <;>
      simp [orderNat, adj, keyMatrix_eq, matGet, Triple.get, keyCofactor, keyMinor, others]

end Sys2Proof.Machine
end

