-- ==== Sys2Proof/Laws/Memory.lean ====
section
/-! SUPPORT. The laws of a buffer: a read after a write, the canonical form and the capacity kept by
every write, and canonical buffers with equal bytes being equal. -/

namespace Sys2Proof.Machine

@[simp] theorem wfFrom_nil (lo : Nat) : Memory.wfFrom lo [] = true := rfl

theorem wfFrom_cons {lo b : Nat} {w : Byte} {rest : Memory} :
    Memory.wfFrom lo ((b, w) :: rest) = true ↔
      lo ≤ b ∧ w ≠ Memory.unlisted ∧ Memory.wfFrom (b + 1) rest = true := by
  simp [Memory.wfFrom, and_assoc]

theorem wfFrom_mono {lo lo' : Nat} {m : Memory} (hlo : lo' ≤ lo) (h : Memory.wfFrom lo m = true) :
    Memory.wfFrom lo' m = true := by
  cases m with
  | nil => rfl
  | cons cell rest =>
    obtain ⟨b, w⟩ := cell
    rw [wfFrom_cons] at h ⊢
    exact ⟨hlo.trans h.1, h.2⟩

/-- Below the first listed address every byte is unlisted. -/
theorem read_of_lt {m : Memory} {lo a : Nat} (h : Memory.wfFrom lo m = true) (ha : a < lo) :
    Memory.read m a = Memory.unlisted := by
  induction m generalizing lo with
  | nil => rfl
  | cons cell rest ih =>
    obtain ⟨b, w⟩ := cell
    rw [wfFrom_cons] at h
    rw [Memory.read, if_neg (by omega)]
    exact ih h.2.2 (by omega)

/-- A write to a canonical buffer changes the byte at its address and no other. -/
theorem read_write {m : Memory} {lo : Nat} (h : Memory.wfFrom lo m = true) (a x : Nat) (v : Byte) :
    Memory.read (Memory.write m a v) x = if x = a then v else Memory.read m x := by
  induction m generalizing lo with
  | nil => by_cases hv : v = Memory.unlisted <;> simp [Memory.write, Memory.read, hv]
  | cons cell rest ih =>
    obtain ⟨b, w⟩ := cell
    have hc := wfFrom_cons.1 h
    simp only [Memory.write]
    split
    · next hab =>
      split
      · next hv =>
        split
        · next hx =>
          subst hx
          rw [hv]
          exact read_of_lt (lo := b) (wfFrom_cons.2 ⟨le_rfl, hc.2⟩) hab
        · rfl
      · simp only [Memory.read]
    · next hab =>
      split
      · next hb =>
        subst hb
        split
        · next hv =>
          split
          · next hx => rw [hx, hv]; exact read_of_lt hc.2.2 (by omega)
          · next hx => simp [Memory.read, hx]
        · simp only [Memory.read]; split <;> simp_all
      · next hb =>
        simp only [Memory.read, ih hc.2.2]
        split
        · next hx => rw [if_neg (by omega)]
        · rfl

/-- A write keeps the canonical form. -/
theorem wfFrom_write {m : Memory} {lo a : Nat} (h : Memory.wfFrom lo m = true) (hlo : lo ≤ a)
    (v : Byte) : Memory.wfFrom lo (Memory.write m a v) = true := by
  induction m generalizing lo with
  | nil =>
    by_cases hv : v = Memory.unlisted
    · simp [Memory.write, hv]
    · simpa [Memory.write, hv, wfFrom_cons] using hlo
  | cons cell rest ih =>
    obtain ⟨b, w⟩ := cell
    have hc := wfFrom_cons.1 h
    simp only [Memory.write]
    split
    · split
      · exact h
      · next hab hv => exact wfFrom_cons.2 ⟨hlo, hv, wfFrom_cons.2 ⟨by omega, hc.2⟩⟩
    · split
      · next hb =>
        subst hb
        split
        · exact wfFrom_mono (by omega) hc.2.2
        · next hv => exact wfFrom_cons.2 ⟨hlo, hv, hc.2.2⟩
      · exact wfFrom_cons.2 ⟨hc.1, hc.2.1, ih hc.2.2 (by omega)⟩

theorem wf_write {m : Memory} (h : Memory.wf m = true) (a : Nat) (v : Byte) :
    Memory.wf (Memory.write m a v) = true := wfFrom_write h (Nat.zero_le a) v

/-- A write below the capacity keeps every listed address below it. -/
theorem within_write {cap a : Nat} {m : Memory} (h : Memory.within cap m = true) (ha : a < cap)
    (v : Byte) : Memory.within cap (Memory.write m a v) = true := by
  induction m with
  | nil => by_cases hv : v = Memory.unlisted <;> simp [Memory.write, Memory.within, hv, ha]
  | cons cell rest ih =>
    obtain ⟨b, w⟩ := cell
    simp only [Memory.within, List.all_cons, Bool.and_eq_true, decide_eq_true_eq] at h ih
    simp only [Memory.write]
    split
    · split <;> simp [Memory.within, h.1, ha] <;> simpa using h.2
    · split
      · split
        · simpa [Memory.within] using h.2
        · simpa [Memory.within, h.1] using h.2
      · simpa [Memory.within, h.1] using ih h.2

/-- Consecutive writes change the bytes they cover and no other. -/
theorem read_writeAll {m : Memory} (h : Memory.wf m = true) (a x : Nat) (vs : List Byte) :
    Memory.read (Memory.writeAll m a vs) x =
      if a ≤ x ∧ x < a + vs.length then vs.getD (x - a) 0 else Memory.read m x := by
  induction vs generalizing m a with
  | nil =>
    rw [if_neg (by simp)]
    rfl
  | cons v vs ih =>
    rw [Memory.writeAll, ih (wf_write h a v), read_write h]
    by_cases hx : x = a
    · subst hx; simp
    · by_cases hr : a + 1 ≤ x ∧ x < a + 1 + vs.length
      · have : x - a = (x - (a + 1)) + 1 := by omega
        rw [if_pos hr, if_pos ⟨by omega, by simp; omega⟩, this, List.getD_cons_succ]
      · rw [if_neg hr, if_neg hx, if_neg (by simp only [List.length_cons]; omega)]

theorem wf_writeAll {m : Memory} (h : Memory.wf m = true) (a : Nat) (vs : List Byte) :
    Memory.wf (Memory.writeAll m a vs) = true := by
  induction vs generalizing m a with
  | nil => exact h
  | cons v vs ih => exact ih (wf_write h a v) (a + 1)

theorem within_writeAll {cap a : Nat} {m : Memory} (h : Memory.within cap m = true) (vs : List Byte)
    (ha : a + vs.length ≤ cap) : Memory.within cap (Memory.writeAll m a vs) = true := by
  induction vs generalizing m a with
  | nil => exact h
  | cons v vs ih =>
    simp only [List.length_cons] at ha
    exact ih (within_write h (by omega) v) (by omega)

/-- Two canonical buffers with the same bytes are the same list. -/
theorem wfFrom_ext {m m' : Memory} {lo : Nat} (h : Memory.wfFrom lo m = true)
    (h' : Memory.wfFrom lo m' = true) (hr : ∀ a, Memory.read m a = Memory.read m' a) : m = m' := by
  induction m generalizing m' lo with
  | nil =>
    cases m' with
    | nil => rfl
    | cons cell rest =>
      obtain ⟨b, w⟩ := cell
      have := hr b
      simp only [Memory.read, ↓reduceIte] at this
      exact absurd this.symm (wfFrom_cons.1 h').2.1
  | cons cell rest ih =>
    obtain ⟨b, w⟩ := cell
    have hc := wfFrom_cons.1 h
    cases m' with
    | nil =>
      have := hr b
      simp only [Memory.read, ↓reduceIte] at this
      exact absurd this hc.2.1
    | cons cell' rest' =>
      obtain ⟨b', w'⟩ := cell'
      have hc' := wfFrom_cons.1 h'
      have hb : b = b' := by
        by_contra hne
        rcases Nat.lt_or_gt_of_ne hne with hlt | hlt
        · have := hr b
          rw [Memory.read, if_pos rfl, read_of_lt (lo := b') (wfFrom_cons.2 ⟨le_rfl, hc'.2⟩) hlt] at this
          exact hc.2.1 this
        · have := hr b'
          rw [read_of_lt (lo := b) (wfFrom_cons.2 ⟨le_rfl, hc.2⟩) hlt, Memory.read, if_pos rfl] at this
          exact hc'.2.1 this.symm
      subst hb
      have hw : w = w' := by simpa [Memory.read] using hr b
      subst hw
      refine congrArg _ (ih hc.2.2 hc'.2.2 fun a => ?_)
      by_cases ha : a = b
      · subst ha; rw [read_of_lt hc.2.2 (by omega), read_of_lt hc'.2.2 (by omega)]
      · simpa [Memory.read, ha] using hr a

theorem wf_ext {m m' : Memory} (h : Memory.wf m = true) (h' : Memory.wf m' = true)
    (hr : ∀ a, Memory.read m a = Memory.read m' a) : m = m' := wfFrom_ext h h' hr

/-- Writing the same byte again leaves the same buffer (20_memory.md R56). -/
theorem write_write_same {m : Memory} (h : Memory.wf m = true) (a : Nat) (v : Byte) :
    Memory.write (Memory.write m a v) a v = Memory.write m a v := by
  have h1 := wf_write h a v
  refine wf_ext (wf_write h1 a v) h1 fun x => ?_
  rw [read_write h1, read_write h]
  split <;> rfl

/-- Writing the same bytes again leaves the same buffer. -/
theorem writeAll_writeAll_same {m : Memory} (h : Memory.wf m = true) (a : Nat) (vs : List Byte) :
    Memory.writeAll (Memory.writeAll m a vs) a vs = Memory.writeAll m a vs := by
  have h1 := wf_writeAll h a vs
  refine wf_ext (wf_writeAll h1 a vs) h1 fun x => ?_
  rw [read_writeAll h1, read_writeAll h]
  split <;> rfl

end Sys2Proof.Machine
end

