-- ==== Sys2Proof/Laws/Modular.lean ====
section
/-! SUPPORT. What the modular inverse search answers (42_modular_inverse.md R151, R152). -/

namespace Sys2Proof.Machine

/-- The tail of the search with `k` candidates left finds the first of them that passes. -/
theorem modinvSearch_some {a : Int} {m k x : Nat} (hk : k < m) (h : modinvSearch a m k = some x) :
    m - k ≤ x ∧ x < m ∧ (a * x) % (m : Int) = 1 := by
  induction k with
  | zero => simp [modinvSearch] at h
  | succ k ih =>
    simp only [modinvSearch] at h
    split at h
    · next ht =>
      cases h
      exact ⟨le_rfl, by omega, ht⟩
    · have := ih (by omega) h
      exact ⟨by omega, this.2⟩

/-- The tail of the search finds nothing only where no candidate passes. -/
theorem modinvSearch_none {a : Int} {m k : Nat} (h : modinvSearch a m k = none) (x : Nat)
    (hx : m - k ≤ x) (hxm : x < m) : (a * x) % (m : Int) ≠ 1 := by
  induction k with
  | zero => omega
  | succ k ih =>
    simp only [modinvSearch] at h
    split at h
    · cases h
    · next ht =>
      rcases Nat.eq_or_lt_of_le hx with rfl | hlt
      · exact ht
      · exact ih h (by omega)

/-- What `modinv` returns is an inverse in `[1, m − 1]`. -/
theorem modinv_some {a : Int} {m x : Nat} (h : modinv a m = some x) :
    1 ≤ x ∧ x < m ∧ (a * x) % (m : Int) = 1 := by
  rcases Nat.eq_zero_or_pos m with rfl | hm
  · simp [modinv, modinvSearch] at h
  · have := modinvSearch_some (by omega) h
    exact ⟨by omega, this.2⟩

/-- Where `modinv` returns nothing there is no inverse in `[1, m − 1]`. -/
theorem modinv_none {a : Int} {m : Nat} (h : modinv a m = none) (x : Nat) (h1 : 1 ≤ x) (hx : x < m) :
    (a * x) % (m : Int) ≠ 1 := modinvSearch_none h x (by omega) hx

/-- Two inverses in `[1, m − 1]` are equal. -/
theorem inverse_unique {a : Int} {m x y : Nat} (hx : x < m) (hy : y < m)
    (h : (a * x) % (m : Int) = 1) (h' : (a * y) % (m : Int) = 1) : x = y := by
  have hm : ((m : Nat) : Int) ∣ (a * x - a * y) := by
    apply Int.dvd_of_emod_eq_zero
    rw [Int.sub_emod, h, h']; simp
  have hd : (m : Int) ∣ (x : Int) - y := by
    have e : (x : Int) - y = x * (1 - a * y) + y * (a * x - 1) := by ring
    have d1 : (m : Int) ∣ a * x - 1 := by
      apply Int.dvd_of_emod_eq_zero
      rw [Int.sub_emod, h]; simp
    have d2 : (m : Int) ∣ 1 - a * y := by
      apply Int.dvd_of_emod_eq_zero
      rw [Int.sub_emod, h']; simp
    rw [e]
    exact dvd_add (Dvd.dvd.mul_left d2 _) (Dvd.dvd.mul_left d1 _)
  have := Int.eq_zero_of_abs_lt_dvd hd (by rw [abs_lt]; omega)
  omega

/-- `modinv` returns any inverse there is. -/
theorem modinv_of_inverse {a : Int} {m x : Nat} (h1 : 1 ≤ x) (hx : x < m)
    (h : (a * x) % (m : Int) = 1) : modinv a m = some x := by
  cases hm : modinv a m with
  | none => exact absurd h (modinv_none hm x h1 hx)
  | some y =>
    have hy := modinv_some hm
    rw [inverse_unique hy.2.1 hx hy.2.2 h]

/-- An inverse exists exactly for coprime operands with a modulus of at least 2. -/
theorem exists_inverse_iff {a : Int} {m : Nat} :
    (∃ x : Nat, 1 ≤ x ∧ x < m ∧ (a * x) % (m : Int) = 1) ↔ 2 ≤ m ∧ Nat.gcd a.natAbs m = 1 := by
  constructor
  · rintro ⟨x, h1, hx, h⟩
    refine ⟨by omega, ?_⟩
    have hg : ((Nat.gcd a.natAbs m : Nat) : Int) ∣ 1 := by
      have da : ((Nat.gcd a.natAbs m : Nat) : Int) ∣ a :=
        Int.natCast_dvd.2 (Nat.gcd_dvd_left _ _)
      have dm : ((Nat.gcd a.natAbs m : Nat) : Int) ∣ (m : Int) :=
        Int.natCast_dvd_natCast.2 (Nat.gcd_dvd_right _ _)
      rw [← h, Int.emod_def]
      exact dvd_sub (Dvd.dvd.mul_right da _) (Dvd.dvd.mul_right dm _)
    exact Nat.dvd_one.1 (by exact_mod_cast hg)
  · rintro ⟨hm, hg⟩
    have hb : a * Int.gcdA a m + m * Int.gcdB a m = 1 := by
      have := Int.gcd_eq_gcd_ab a m
      rw [← this]
      exact_mod_cast hg
    have hpos : (0 : Int) < m := by omega
    refine ⟨(Int.gcdA a m % m).toNat, ?_⟩
    have hnn : 0 ≤ Int.gcdA a m % m := Int.emod_nonneg _ hpos.ne'
    have hlt : Int.gcdA a m % m < m := Int.emod_lt_of_pos _ hpos
    have he : (a * (Int.gcdA a m % m)) % (m : Int) = 1 := by
      rw [Int.mul_emod, Int.emod_emod, ← Int.mul_emod]
      have : a * Int.gcdA a m = 1 - m * Int.gcdB a m := by linarith
      rw [this, Int.sub_mul_emod_self_left]
      exact Int.emod_eq_of_lt (by norm_num) (by omega)
    refine ⟨?_, by omega, by rw [Int.toNat_of_nonneg hnn]; exact he⟩
    by_contra h0
    have : Int.gcdA a m % m = 0 := by omega
    rw [this] at he
    simp at he

end Sys2Proof.Machine
end

