-- ==== Sys2Proof/Laws/Cipher.lean ====
section
/-! SUPPORT. What preprocessing, padding, the block transform and writing a result answer, in the terms
of Sys2Proof/Safety.lean (44_cipher.md R190 to R197). -/

namespace Sys2Proof.Machine

/-- What `prep` does with one byte: a space, no legal byte, or a letter (R191). -/
theorem upperCase_cases : ∀ b : Byte,
    (upperCase b = 0x20 ∧ b = 0x20 ∧ letterOf b = none) ∨
    (upperCase b ≠ 0x20 ∧ (upperCase b < 0x41 ∨ 0x5A < upperCase b) ∧ b ≠ 0x20 ∧ letterOf b = none) ∨
    (upperCase b ≠ 0x20 ∧ ¬ (upperCase b < 0x41 ∨ 0x5A < upperCase b) ∧
      letterOf b = some (letterValue (upperCase b))) := by
  decide +kernel

theorem letterOf_range {b : Byte} {v : Int} (h : letterOf b = some v) : 0 ≤ v ∧ v ≤ 25 := by
  unfold letterOf at h
  split at h
  · cases h; omega
  · split at h
    · cases h; omega
    · cases h

/-- All that `prep` can answer on legal bytes. -/
theorem prep_legal {bytes : List Byte} (h : ∀ b ∈ bytes, LegalByte b) :
    prep bytes = .ok (bytes.filterMap letterOf) := by
  induction bytes with
  | nil => rfl
  | cons b rest ih =>
    have hb := h b (by simp)
    have ih := ih fun x hx => h x (by simp [hx])
    rcases upperCase_cases b with ⟨h1, h2, h3⟩ | ⟨-, -, h2, h3⟩ | ⟨h1, h2, h3⟩
    · simp only [prep, if_pos h1, ih, List.filterMap_cons, h3]
    · rcases hb with hb | hb
      · exact absurd hb h2
      · simp [h3] at hb
    · simp only [prep, if_neg h1, if_neg h2, ih, List.filterMap_cons, h3]

/-- All that `prep` can answer where some byte is not legal. -/
theorem prep_illegal {bytes : List Byte} (h : ∃ b ∈ bytes, ¬ LegalByte b) :
    prep bytes = .error .invalidAlphabet := by
  induction bytes with
  | nil => simp at h
  | cons b rest ih =>
    rcases upperCase_cases b with ⟨h1, h2, h3⟩ | ⟨h1, h2, -, -⟩ | ⟨h1, h2, h3⟩
    · have : ∃ x ∈ rest, ¬ LegalByte x := by
        obtain ⟨x, hx, hl⟩ := h
        rcases List.mem_cons.1 hx with rfl | hx
        · exact absurd (.inl h2) hl
        · exact ⟨x, hx, hl⟩
      simp only [prep, if_pos h1, ih this]
    · simp only [prep, if_neg h1, if_pos h2]
    · have : ∃ x ∈ rest, ¬ LegalByte x := by
        obtain ⟨x, hx, hl⟩ := h
        rcases List.mem_cons.1 hx with rfl | hx
        · exact absurd (.inr (by simp [h3])) hl
        · exact ⟨x, hx, hl⟩
      simp only [prep, if_neg h1, if_neg h2, ih this]

/-- The message of a state within the bound. -/
theorem message_eq {u : UnitState} (h : u.msgLen.toNat ≤ Config.msgCap) :
    message u = some (messageBytes u) := by simp [message, messageBytes, h]

theorem message_none {u : UnitState} (h : Config.msgCap < u.msgLen.toNat) : message u = none := by
  simp [message]; omega

@[simp] theorem length_messageBytes (u : UnitState) : (messageBytes u).length = u.msgLen.toNat := by
  simp [messageBytes]

theorem length_messageLetters_le (u : UnitState) :
    (messageLetters u).length ≤ u.msgLen.toNat := by
  have := List.length_filterMap_le letterOf (messageBytes u)
  simpa [messageLetters] using this

theorem messageLetters_range {u : UnitState} {v : Int} (h : v ∈ messageLetters u) : 0 ≤ v ∧ v ≤ 25 := by
  obtain ⟨b, -, hb⟩ := List.mem_filterMap.1 h
  exact letterOf_range hb

/-! ## Padding (R192) -/

theorem length_pad (S : List Int) (n : Order) :
    (pad S n).length = paddedLength (orderNat n) S.length := by
  cases n <;> simp [pad, paddedLength, orderNat, emod] <;> omega

theorem getD_pad (S : List Int) (n : Order) (k : Nat) : (pad S n).getD k 25 = paddedAt S k := by
  simp only [pad, paddedAt, Config.padv]
  by_cases h : k < S.length
  · rw [List.getD_append _ _ _ _ h]
  · rw [List.getD_append_right _ _ _ _ (by omega), List.getD_eq_default S _ (by omega)]
    by_cases h2 : k - S.length < (emod (-(S.length : Int)) (orderNat n)).toNat <;>
      simp [List.getD_eq_getElem?_getD, h2]

theorem dvd_paddedLength (n len : Nat) : n ∣ paddedLength n len := Dvd.intro _ rfl

theorem paddedLength_bounds (n : Order) (len : Nat) :
    len ≤ paddedLength (orderNat n) len ∧ paddedLength (orderNat n) len ≤ len + 2 := by
  cases n <;> simp only [paddedLength, orderNat] <;> omega

theorem pad_range {S : List Int} (n : Order) (h : ∀ v ∈ S, 0 ≤ v ∧ v ≤ 25) :
    ∀ v ∈ pad S n, 0 ≤ v ∧ v ≤ 25 := by
  intro v hv
  rcases List.mem_append.1 hv with hv | hv
  · exact h v hv
  · rw [List.eq_of_mem_replicate hv]; decide

/-! ## The block transform (R193, R194) -/

theorem matvec_two (M : Mat3 Int) (a b x : Int) : matvec M ⟨a, b, x⟩ .two =
    [(matGet M 0 0 * a + matGet M 0 1 * b) % 26, (matGet M 1 0 * a + matGet M 1 1 * b) % 26] := by
  simp [matvec, indices, Triple.get]

theorem matvec_three (M : Mat3 Int) (a b c : Int) : matvec M ⟨a, b, c⟩ .three =
    [(matGet M 0 0 * a + matGet M 0 1 * b + matGet M 0 2 * c) % 26,
      (matGet M 1 0 * a + matGet M 1 1 * b + matGet M 1 2 * c) % 26,
      (matGet M 2 0 * a + matGet M 2 1 * b + matGet M 2 2 * c) % 26] := by
  simp [matvec, indices, Triple.get, add_assoc]

/-- The block product one block on. -/
theorem blockProductAt_add (n : Order) (M : Fin 3 → Fin 3 → Int) (P : Nat → Int) (a : Nat) :
    blockProductAt (orderNat n) M P (a + orderNat n) =
      blockProductAt (orderNat n) M (fun k => P (k + orderNat n)) a := by
  have hn : 0 < orderNat n := by cases n <;> simp [orderNat]
  have h1 : (a + orderNat n) / orderNat n * orderNat n = a / orderNat n * orderNat n + orderNat n := by
    rw [Nat.add_div_right _ hn, Nat.succ_mul]
  have e1 : a / orderNat n * orderNat n + orderNat n + 1 = a / orderNat n * orderNat n + 1 + orderNat n := by
    omega
  have e2 : a / orderNat n * orderNat n + orderNat n + 2 = a / orderNat n * orderNat n + 2 + orderNat n := by
    omega
  simp only [blockProductAt, Nat.add_mod_right, h1, e1, e2]

/-- What `transform` gives for whole blocks: as many values, each the product of its block (R194). -/
theorem transform_spec (M : Mat3 Int) (n : Order) (q : Nat) (S : List Int)
    (hS : S.length = q * orderNat n) :
    (transform M S n).length = S.length ∧
      ∀ a, a < S.length → (transform M S n).getD a 0 =
        blockProductAt (orderNat n) (matGet M) (fun k => S.getD k 0) a := by
  induction q generalizing S with
  | zero =>
    obtain rfl : S = [] := List.length_eq_zero_iff.1 (by simpa using hS)
    cases n <;> simp [transform]
  | succ q ih =>
    cases n with
    | two =>
      obtain ⟨a, S, rfl⟩ := List.exists_cons_of_length_pos (l := S) (by rw [hS]; simp [orderNat])
      obtain ⟨b, S, rfl⟩ := List.exists_cons_of_length_pos (l := S)
        (by simp [orderNat] at hS; omega)
      have hl : S.length = q * orderNat .two := by simp [orderNat] at hS ⊢; omega
      obtain ⟨h1, h2⟩ := ih S hl
      simp only [transform, matvec_two]
      refine ⟨by simp [h1], fun k hk => ?_⟩
      match k with
      | 0 => simp [blockProductAt, orderNat]
      | 1 => simp [blockProductAt, orderNat]; rfl
      | k + 2 =>
        have := h2 k (by simpa using hk)
        have hb := blockProductAt_add .two (matGet M) (fun k => (a :: b :: S).getD k 0) k
        simp only [orderNat] at hb this ⊢
        rw [hb]
        simpa using this
    | three =>
      obtain ⟨a, S, rfl⟩ := List.exists_cons_of_length_pos (l := S) (by rw [hS]; simp [orderNat])
      obtain ⟨b, S, rfl⟩ := List.exists_cons_of_length_pos (l := S)
        (by simp [orderNat] at hS; omega)
      obtain ⟨c, S, rfl⟩ := List.exists_cons_of_length_pos (l := S)
        (by simp [orderNat] at hS; omega)
      have hl : S.length = q * orderNat .three := by simp [orderNat] at hS ⊢; omega
      obtain ⟨h1, h2⟩ := ih S hl
      simp only [transform, matvec_three]
      refine ⟨by simp [h1], fun k hk => ?_⟩
      match k with
      | 0 => simp [blockProductAt, orderNat]
      | 1 => simp [blockProductAt, orderNat]; rfl
      | 2 => simp [blockProductAt, orderNat]
      | k + 3 =>
        have := h2 k (by simpa using hk)
        have hb := blockProductAt_add .three (matGet M) (fun k => (a :: b :: c :: S).getD k 0) k
        simp only [orderNat] at hb this ⊢
        rw [hb]
        simpa using this

/-- Every value `transform` gives is in [0, 25]. -/
theorem transform_range (M : Mat3 Int) (S : List Int) (n : Order) :
    ∀ v ∈ transform M S n, 0 ≤ v ∧ v ≤ 25 := by
  have key : ∀ (w : Triple Int), ∀ v ∈ matvec M w n, 0 ≤ v ∧ v ≤ 25 := by
    intro w v hv
    obtain ⟨i, -, rfl⟩ := List.mem_map.1 hv
    simp only [emod_q]
    omega
  fun_induction transform M S n with
  | case1 a b rest ih =>
    intro v hv
    rcases List.mem_append.1 hv with hv | hv
    · exact key _ v hv
    · exact ih key v hv
  | case2 a b c rest ih =>
    intro v hv
    rcases List.mem_append.1 hv with hv | hv
    · exact key _ v hv
    · exact ih key v hv
  | case3 => simp

/-! ## Writing a result (R28, R196, R197) -/

theorem letterByte_toNat {v : Int} (h0 : 0 ≤ v) (h : v ≤ 25) :
    ((letterByte v).toNat : Int) = 0x41 + v := by
  rw [letterByte, BitVec.toNat_ofInt]
  omega

theorem zext16_toNat (v : BitVec 16) : (zext16 v).toNat = v.toNat := by
  simp [zext16]; omega

/-- All that `emitText` can do with a text that fits (R28, R62). -/
theorem emitText_eq (T : List Int) (s : State) (h : T.length ≤ Config.outCap) :
    emitText T s = .next (reply s
      { s.unit with
        out := Memory.writeAll s.unit.out 0 (T.map letterByte)
        outLen := BitVec.ofNat 16 T.length } 0 (BitVec.ofNat 32 T.length)) := by
  have hl : T.length % 2 ^ 16 = T.length := Nat.mod_eq_of_lt (by
    have : Config.outCap = 258 := rfl
    omega)
  have hz : zext16 (BitVec.ofNat 16 T.length) = BitVec.ofNat 32 T.length := by
    apply BitVec.eq_of_toNat_eq
    rw [zext16_toNat]
    simp only [BitVec.toNat_ofNat, hl]
    rw [Nat.mod_eq_of_lt]
    have : Config.outCap = 258 := rfl
    omega
  simp [emitText, writeResult, h, hz]

/-- What a written text reads as. -/
theorem read_text {m : Memory} (hm : Memory.wf m = true) (T : List Int)
    (hT : ∀ v ∈ T, 0 ≤ v ∧ v ≤ 25) :
    (∀ a, a < T.length →
      ((Memory.read (Memory.writeAll m 0 (T.map letterByte)) a).toNat : Int) = 0x41 + T.getD a 0) ∧
    ∀ a, T.length ≤ a →
      Memory.read (Memory.writeAll m 0 (T.map letterByte)) a = Memory.read m a := by
  refine ⟨fun a ha => ?_, fun a ha => ?_⟩
  · rw [read_writeAll hm, if_pos (by simpa using ha)]
    have hg : (T.map letterByte).getD (a - 0) 0 = letterByte (T.getD a 0) := by
      simp [List.getD_eq_getElem?_getD, List.getElem?_map, List.getElem?_eq_getElem ha]
    have hv := hT (T.getD a 0) (by
      rw [List.getD_eq_getElem?_getD, List.getElem?_eq_getElem ha]; simp)
    rw [hg, letterByte_toNat hv.1 hv.2]
  · rw [read_writeAll hm, if_neg (by simp; omega)]

/-! ## The key inverse (43_adjugate_inverse.md R173, R175) -/

/-- All that `keyinv` can answer on the key registers: the defensive branch of R173 is dead (R175). -/
theorem keyinv_cases (n : Order) (u : UnitState) :
    (Int.gcd (keyDet (orderNat n) u) 26 ≠ 1 ∧ keyinv n (keyMatrix u) = .error .notInvertible) ∨
    (Int.gcd (keyDet (orderNat n) u) 26 = 1 ∧ ∃ x : Nat, 1 ≤ x ∧ x ≤ 25 ∧
      (keyDet (orderNat n) u * x) % 26 = 1 ∧
      keyinv n (keyMatrix u) = .ok (scaleMatrix x (adj n (keyMatrix u)))) := by
  have hq : Config.q.toNat = 26 := rfl
  unfold keyinv
  rw [det_keyMatrix]
  by_cases hg : Int.gcd (keyDet (orderNat n) u) 26 = 1
  · refine .inr ⟨hg, ?_⟩
    rw [if_pos ((invertible26_iff _).2 hg), emod_q, hq]
    have hx := exists_inverse_iff (a := keyDet (orderNat n) u % 26) (m := 26)
    have hg' : Nat.gcd (keyDet (orderNat n) u % 26).natAbs 26 = 1 := by
      have := Int.gcd_emod (keyDet (orderNat n) u) 26
      rw [hg] at this
      simpa [Int.gcd] using this
    obtain ⟨x, h1, h2, h3⟩ := hx.2 ⟨by norm_num, hg'⟩
    refine ⟨x, h1, by omega, ?_, ?_⟩
    · rw [← h3]; simp [Int.mul_emod]
    · rw [modinv_of_inverse h1 h2 h3]
  · refine .inl ⟨hg, ?_⟩
    rw [if_neg (by rw [invertible26_iff]; exact hg)]

end Sys2Proof.Machine
end

