-- ==== Sys2Proof/Laws/Decode.lean ====
section
/-! SUPPORT. The fields of an encoded word, format by format, and what each format's decoder answers. -/

namespace Sys2Proof

/-- A concatenation as a number. -/
theorem toNat_append_eq {n m : Nat} (x : BitVec n) (y : BitVec m) :
    (x ++ y).toNat = x.toNat * 2 ^ m + y.toNat := by
  rw [BitVec.toNat_append, ← Nat.shiftLeft_add_eq_or_of_lt y.isLt, Nat.shiftLeft_eq]

/-- A field as a number. -/
theorem toNat_field {n : Nat} (w : BitVec n) (lo len : Nat) :
    (w.extractLsb' lo len).toNat = w.toNat / 2 ^ lo % 2 ^ len := by
  rw [BitVec.extractLsb'_toNat, Nat.shiftRight_eq_div_pow]

theorem encodeN_toNat (op : BitVec 8) : (encodeN op).toNat = op.toNat * 2 ^ 24 := by
  simp only [encodeN, toNat_append_eq]; simp

theorem encodeD_toNat (op : BitVec 8) (rows cols : BitVec 4) :
    (encodeD op rows cols).toNat = op.toNat * 2 ^ 24 + cols.toNat * 2 ^ 4 + rows.toNat := by
  have h : (encodeD op rows cols).toNat
      = (((op ++ (0 : BitVec 16)) ++ cols) ++ rows).toNat := rfl
  rw [h]; simp only [toNat_append_eq]; simp; omega

theorem encodeE_toNat (op : BitVec 8) (r c : BitVec 2) (v : BitVec 8) :
    (encodeE op r c v).toNat
      = op.toNat * 2 ^ 24 + r.toNat * 2 ^ 10 + c.toNat * 2 ^ 8 + v.toNat := by
  have h : (encodeE op r c v).toNat
      = ((((op ++ (0 : BitVec 12)) ++ r) ++ c) ++ v).toNat := rfl
  rw [h]; simp only [toNat_append_eq]; simp; omega

theorem encodeI24_toNat (op : BitVec 8) (v : BitVec 24) :
    (encodeI24 op v).toNat = op.toNat * 2 ^ 24 + v.toNat := by
  simp only [encodeI24, toNat_append_eq]

theorem encodeI16_toNat (op : BitVec 8) (v : BitVec 16) :
    (encodeI16 op v).toNat = op.toNat * 2 ^ 24 + v.toNat := by
  have h : (encodeI16 op v).toNat = ((op ++ (0 : BitVec 8)) ++ v).toNat := rfl
  rw [h]; simp only [toNat_append_eq]; simp; omega

theorem encodeB_toNat (op : BitVec 8) (addr : BitVec 16) (v : BitVec 8) :
    (encodeB op addr v).toNat = op.toNat * 2 ^ 24 + addr.toNat * 2 ^ 8 + v.toNat := by
  have h : (encodeB op addr v).toNat = ((op ++ addr) ++ v).toNat := rfl
  rw [h]; simp only [toNat_append_eq]; omega

section
variable (op : BitVec 8) (rows cols : BitVec 4) (r c : BitVec 2) (v : BitVec 8) (a : BitVec 16)
  (x : BitVec 24)

@[simp] theorem opField_encodeN : opField (encodeN op) = op := by
  apply BitVec.eq_of_toNat_eq
  rw [opField, toNat_field, encodeN_toNat]; have := op.isLt; omega
@[simp] theorem opField_encodeD : opField (encodeD op rows cols) = op := by
  apply BitVec.eq_of_toNat_eq
  rw [opField, toNat_field, encodeD_toNat]; have := op.isLt; omega
@[simp] theorem opField_encodeE : opField (encodeE op r c v) = op := by
  apply BitVec.eq_of_toNat_eq
  rw [opField, toNat_field, encodeE_toNat]; have := op.isLt; omega
@[simp] theorem opField_encodeI24 : opField (encodeI24 op x) = op := by
  apply BitVec.eq_of_toNat_eq
  rw [opField, toNat_field, encodeI24_toNat]; have := op.isLt; omega
@[simp] theorem opField_encodeI16 : opField (encodeI16 op a) = op := by
  apply BitVec.eq_of_toNat_eq
  rw [opField, toNat_field, encodeI16_toNat]; have := op.isLt; omega
@[simp] theorem opField_encodeB : opField (encodeB op a v) = op := by
  apply BitVec.eq_of_toNat_eq
  rw [opField, toNat_field, encodeB_toNat]; have := op.isLt; omega
@[simp] theorem opField_encodeER : opField (encodeER op r c) = op := opField_encodeE op r c 0
@[simp] theorem opField_encodeBR : opField (encodeBR op a) = op := opField_encodeB op 0 a

/-- What each format's decoder reads from its own encoding (R71 to R76). -/
theorem decodeN_encodeN (i : Instr) : decodeN i (encodeN op) = .ok i := by
  have h : (encodeN op).extractLsb' 0 24 = 0 := by
    apply BitVec.eq_of_toNat_eq
    rw [toNat_field, encodeN_toNat]; simp
  rw [decodeN, if_neg (not_not.2 h)]

theorem decodeD_encodeD (mk : BitVec 4 → BitVec 4 → Instr) :
    decodeD mk (encodeD op rows cols) = .ok (mk rows cols) := by
  have hr := rows.isLt
  have hc := cols.isLt
  have h : (encodeD op rows cols).extractLsb' 8 16 = 0 := by
    apply BitVec.eq_of_toNat_eq
    rw [toNat_field, encodeD_toNat]
    simp only [BitVec.ofNat_eq_ofNat, BitVec.toNat_ofNat, Nat.zero_mod]; omega
  have h1 : rowsField (encodeD op rows cols) = rows := by
    apply BitVec.eq_of_toNat_eq
    rw [rowsField, toNat_field, encodeD_toNat]; omega
  have h2 : colsField (encodeD op rows cols) = cols := by
    apply BitVec.eq_of_toNat_eq
    rw [colsField, toNat_field, encodeD_toNat]; omega
  rw [decodeD, if_neg (not_not.2 h), h1, h2]

/-- The fields of a word of format E. -/
theorem fields_encodeE :
    (encodeE op r c v).extractLsb' 12 12 = 0 ∧ rField (encodeE op r c v) = r ∧
      cField (encodeE op r c v) = c ∧ imm8Field (encodeE op r c v) = v := by
  have hr := r.isLt
  have hc := c.isLt
  have hv := v.isLt
  refine ⟨?_, ?_, ?_, ?_⟩ <;> apply BitVec.eq_of_toNat_eq
  · rw [toNat_field, encodeE_toNat]
    simp only [BitVec.ofNat_eq_ofNat, BitVec.toNat_ofNat, Nat.zero_mod]; omega
  · rw [rField, toNat_field, encodeE_toNat]; omega
  · rw [cField, toNat_field, encodeE_toNat]; omega
  · rw [imm8Field, toNat_field, encodeE_toNat]; omega

theorem decodeE_encodeE (mk : BitVec 2 → BitVec 2 → BitVec 8 → Instr)
    (hr : indexLegal r = true) (hc : indexLegal c = true) :
    decodeE mk (encodeE op r c v) = .ok (mk r c v) := by
  obtain ⟨h0, h1, h2, h3⟩ := fields_encodeE op r c v
  rw [decodeE, if_neg (not_not.2 h0), h1, h2, h3, if_neg (by simp [hr, hc])]

theorem decodeER_encodeER (mk : BitVec 2 → BitVec 2 → Instr)
    (hr : indexLegal r = true) (hc : indexLegal c = true) :
    decodeER mk (encodeER op r c) = .ok (mk r c) := by
  obtain ⟨h0, h1, h2, h3⟩ := fields_encodeE op r c 0
  have h4 : (encodeE op r c 0).extractLsb' 0 8 = 0 := h3
  rw [encodeER, decodeER, h0, h4, h1, h2, if_neg (by simp), if_neg (by simp [hr, hc])]

theorem decodeI24_encodeI24 (mk : BitVec 24 → Instr) : decodeI24 mk (encodeI24 op x) = .ok (mk x) := by
  have h : simm24Field (encodeI24 op x) = x := by
    apply BitVec.eq_of_toNat_eq
    rw [simm24Field, toNat_field, encodeI24_toNat]; have := x.isLt; omega
  rw [decodeI24, h]

theorem decodeI16_encodeI16 (mk : BitVec 16 → Instr) : decodeI16 mk (encodeI16 op a) = .ok (mk a) := by
  have ha := a.isLt
  have h : (encodeI16 op a).extractLsb' 16 8 = 0 := by
    apply BitVec.eq_of_toNat_eq
    rw [toNat_field, encodeI16_toNat]
    simp only [BitVec.ofNat_eq_ofNat, BitVec.toNat_ofNat, Nat.zero_mod]; omega
  have h1 : uimm16Field (encodeI16 op a) = a := by
    apply BitVec.eq_of_toNat_eq
    rw [uimm16Field, toNat_field, encodeI16_toNat]; omega
  rw [decodeI16, if_neg (not_not.2 h), h1]

/-- The fields of a word of format B. -/
theorem fields_encodeB : addrField (encodeB op a v) = a ∧ imm8Field (encodeB op a v) = v := by
  have ha := a.isLt
  have hv := v.isLt
  refine ⟨?_, ?_⟩ <;> apply BitVec.eq_of_toNat_eq
  · rw [addrField, toNat_field, encodeB_toNat]; omega
  · rw [imm8Field, toNat_field, encodeB_toNat]; omega

theorem decodeB_encodeB (mk : BitVec 16 → BitVec 8 → Instr) :
    decodeB mk (encodeB op a v) = .ok (mk a v) := by
  obtain ⟨h1, h2⟩ := fields_encodeB op v a
  rw [decodeB, h1, h2]

theorem decodeBR_encodeBR (mk : BitVec 16 → Instr) : decodeBR mk (encodeBR op a) = .ok (mk a) := by
  obtain ⟨h1, h2⟩ := fields_encodeB op 0 a
  have h3 : (encodeB op a 0).extractLsb' 0 8 = 0 := h2
  rw [encodeBR, decodeBR, if_neg (not_not.2 h3), h1]

end

/-- The four bytes on the channel give the word back (20_memory.md R55). -/
theorem channelWord_channelBytes (w : Word) :
    (match channelBytes w with
      | [b0, b1, b2, b3] => channelWord b0 b1 b2 b3
      | _ => 0) = w := by
  apply BitVec.eq_of_toNat_eq
  have h : ∀ b0 b1 b2 b3 : Byte, (channelWord b0 b1 b2 b3).toNat
      = (((b3 ++ b2) ++ b1) ++ b0).toNat := fun _ _ _ _ => rfl
  simp only [channelBytes, h, toNat_append_eq, toNat_field]
  have := w.isLt
  omega

end Sys2Proof
end

