-- ==== Sys2Proof/Laws/Exec.lean ====
section
/-! SUPPORT. Once for each compute command and once for `exec` and `step` as a whole: everything they
can answer. A proof about a command cites these and unfolds no meaning. -/

namespace Sys2Proof.Machine

theorem reply_inj {s : State} {u u' : UnitState} {c c' : BitVec 8} {d d' : Word}
    (h : reply s u c d = reply s u' c' d') : u = u' ∧ c = c' ∧ d = d' := by
  simp [reply] at h; tauto

theorem byte_ofInt_toNat {x : Int} (h0 : 0 ≤ x) (h : x ≤ 25) :
    ((BitVec.ofInt 8 x).toNat : Int) = x := by
  rw [BitVec.toNat_ofInt]; omega

theorem keyError_code {u : UnitState} {c : BitVec 8} (h : KeyError u c) :
    c ≠ 0 ∧ c.toNat ≤ 8 ∧ c ≠ 4 := by
  rcases h with ⟨-, rfl⟩ | ⟨-, -, -, rfl⟩ | ⟨-, -, -, rfl⟩ <;> decide

/-! ## ADJ and KINV (43_adjugate_inverse.md R172, R174) -/

/-- What ADJ writes, entry by entry. -/
theorem adj_entry (n : Order) (u : UnitState) (r c : Fin 3) :
    ((matGet (resultMatrix n (adj n (keyMatrix u))) r c).toNat : Int) =
      if r.val < orderNat n ∧ c.val < orderNat n then keyCofactor (orderNat n) u r c % 26 else 0 := by
  rw [matGet_resultMatrix]
  split
  · next h => rw [matGet_adj n u r c h.1 h.2, byte_ofInt_toNat] <;> omega
  · rfl

/-- What KINV writes for the inverse `x` of the determinant, entry by entry. -/
theorem kinv_entry (n : Order) (u : UnitState) (x : Nat) (r c : Fin 3) :
    ((matGet (resultMatrix n (scaleMatrix x (adj n (keyMatrix u)))) r c).toNat : Int) =
      if r.val < orderNat n ∧ c.val < orderNat n then
        (x * (keyCofactor (orderNat n) u r c % 26)) % 26 else 0 := by
  rw [matGet_resultMatrix]
  split
  · next h =>
    rw [scaleMatrix, get_matOf, matGet_adj n u r c h.1 h.2, emod_q, byte_ofInt_toNat] <;> omega
  · rfl

theorem exec_adj {s : State} {n : Order} (hk : keycheck s.unit = .ok n) :
    exec .adj s = .next (reply s
      { s.unit with adj := resultMatrix n (adj n (keyMatrix s.unit)) } 0 0) := by
  simp only [exec, execAdj, hk, orRaise_ok]; rfl

/-- All that KINV can do with a valid key. -/
theorem exec_kinv_cases {s : State} {n : Order} (hk : keycheck s.unit = .ok n) :
    (Int.gcd (keyDet (orderNat n) s.unit) 26 ≠ 1 ∧ exec .kinv s = .next (replyError s 3)) ∨
    (Int.gcd (keyDet (orderNat n) s.unit) 26 = 1 ∧ ∃ x : Nat, 1 ≤ x ∧ x ≤ 25 ∧
      (keyDet (orderNat n) s.unit * x) % 26 = 1 ∧
      exec .kinv s = .next (reply s
        { s.unit with inv := resultMatrix n (scaleMatrix x (adj n (keyMatrix s.unit))) } 0 0)) := by
  simp only [exec, execKinv, hk, orRaise_ok]
  rcases keyinv_cases n s.unit with ⟨a, b⟩ | ⟨a, x, h1, h2, h3, b⟩
  · exact .inl ⟨a, by rw [b]; rfl⟩
  · exact .inr ⟨a, x, h1, h2, h3, by rw [b]; rfl⟩

/-! ## ENC and DEC (44_cipher.md R196, R197) -/

/-- The unit with a text of values written as its result. -/
def textUnit (u : UnitState) (T : List Int) : UnitState :=
  { u with
    out := Memory.writeAll u.out 0 (T.map letterByte)
    outLen := BitVec.ofNat 16 T.length }

theorem textUnit_spec {u : UnitState} (h : Memory.wf u.out = true) {T : List Int}
    (hT : ∀ v ∈ T, 0 ≤ v ∧ v ≤ 25) (hl : T.length ≤ Config.outCap) :
    (textUnit u T).outLen.toNat = T.length ∧
    (∀ a, a < T.length → ((Memory.read (textUnit u T).out a).toNat : Int) = 0x41 + T.getD a 0) ∧
    ∀ a, T.length ≤ a → Memory.read (textUnit u T).out a = Memory.read u.out a := by
  refine ⟨?_, (read_text h T hT).1, (read_text h T hT).2⟩
  have : Config.outCap = 258 := rfl
  simp [textUnit]; omega

theorem length_encrypted (u : UnitState) (n : Order) :
    (transform (keyMatrix u) (pad (messageLetters u) n) n).length =
      paddedLength (orderNat n) (messageLetters u).length := by
  obtain ⟨q, hq⟩ := dvd_paddedLength (orderNat n) (messageLetters u).length
  rw [(transform_spec _ n q _ (by rw [length_pad, hq, Nat.mul_comm])).1, length_pad]

theorem length_encrypted_le {u : UnitState} (n : Order) (h : u.msgLen.toNat ≤ Config.msgCap) :
    (transform (keyMatrix u) (pad (messageLetters u) n) n).length ≤ Config.outCap := by
  rw [length_encrypted]
  have := paddedLength_bounds n (messageLetters u).length
  have := length_messageLetters_le u
  unfold Config.outCap; omega

/-- All that ENC can do. -/
theorem exec_enc_cases (s : State) :
    (∃ c, KeyError s.unit c ∧ exec .enc s = .next (replyError s c)) ∨
    (∃ n, ValidKey (orderNat n) s.unit ∧ keycheck s.unit = .ok n ∧
      ((Config.msgCap < s.unit.msgLen.toNat ∧ exec .enc s = .fault .outsideBuffer) ∨
       (s.unit.msgLen.toNat ≤ Config.msgCap ∧ (∃ b ∈ messageBytes s.unit, ¬ LegalByte b) ∧
        exec .enc s = .next (replyError s 5)) ∨
       (s.unit.msgLen.toNat ≤ Config.msgCap ∧ (∀ b ∈ messageBytes s.unit, LegalByte b) ∧
        let T := transform (keyMatrix s.unit) (pad (messageLetters s.unit) n) n
        exec .enc s = .next (reply s (textUnit s.unit T) 0 (BitVec.ofNat 32 T.length))))) := by
  simp only [exec, execEnc]
  cases hk : keycheck s.unit with
  | error e => exact .inl ⟨_, keycheck_error _ _ hk, rfl⟩
  | ok n =>
    refine .inr ⟨n, (keycheck_ok_iff _ _).1 hk, rfl, ?_⟩
    rcases Nat.lt_or_ge Config.msgCap s.unit.msgLen.toNat with h | h
    · left; simp [h, message_none h]
    · right
      simp only [orRaise_ok, message_eq h, orOutside_some]
      by_cases hl : ∃ b ∈ messageBytes s.unit, ¬ LegalByte b
      · left; refine ⟨h, hl, ?_⟩; rw [prep_illegal hl]; rfl
      · right
        push Not at hl
        refine ⟨h, hl, ?_⟩
        rw [prep_legal hl, orRaise_ok]
        exact emitText_eq _ _ (length_encrypted_le _ h)

/-- All that DEC can do. -/
theorem exec_dec_cases (s : State) :
    (∃ c, KeyError s.unit c ∧ exec .dec s = .next (replyError s c)) ∨
    (∃ n, ValidKey (orderNat n) s.unit ∧ keycheck s.unit = .ok n ∧
      ((Config.msgCap < s.unit.msgLen.toNat ∧ exec .dec s = .fault .outsideBuffer) ∨
       (s.unit.msgLen.toNat ≤ Config.msgCap ∧ (∃ b ∈ messageBytes s.unit, ¬ LegalByte b) ∧
        exec .dec s = .next (replyError s 5)) ∨
       (s.unit.msgLen.toNat ≤ Config.msgCap ∧ (∀ b ∈ messageBytes s.unit, LegalByte b) ∧
        ((¬ orderNat n ∣ (messageLetters s.unit).length ∧ exec .dec s = .next (replyError s 6)) ∨
         (orderNat n ∣ (messageLetters s.unit).length ∧
          Int.gcd (keyDet (orderNat n) s.unit) 26 ≠ 1 ∧ exec .dec s = .next (replyError s 3)) ∨
         (orderNat n ∣ (messageLetters s.unit).length ∧
          Int.gcd (keyDet (orderNat n) s.unit) 26 = 1 ∧
          ∃ x : Nat, 1 ≤ x ∧ x ≤ 25 ∧ (keyDet (orderNat n) s.unit * x) % 26 = 1 ∧
          let T := transform (scaleMatrix x (adj n (keyMatrix s.unit))) (messageLetters s.unit) n
          T.length = (messageLetters s.unit).length ∧
          exec .dec s = .next (reply s (textUnit s.unit T) 0 (BitVec.ofNat 32 T.length))))))) := by
  simp only [exec, execDec]
  cases hk : keycheck s.unit with
  | error e => exact .inl ⟨_, keycheck_error _ _ hk, rfl⟩
  | ok n =>
    refine .inr ⟨n, (keycheck_ok_iff _ _).1 hk, rfl, ?_⟩
    rcases Nat.lt_or_ge Config.msgCap s.unit.msgLen.toNat with h | h
    · left; simp [h, message_none h]
    right
    simp only [orRaise_ok, message_eq h, orOutside_some]
    by_cases hl : ∃ b ∈ messageBytes s.unit, ¬ LegalByte b
    · left; refine ⟨h, hl, ?_⟩; rw [prep_illegal hl]; rfl
    right
    push Not at hl
    refine ⟨h, hl, ?_⟩
    rw [prep_legal hl, orRaise_ok]
    have hd : emod ((messageBytes s.unit).filterMap letterOf).length (orderNat n) ≠ 0 ↔
        ¬ orderNat n ∣ (messageLetters s.unit).length := by
      rw [emod, ne_eq, ← Int.natCast_mod, Int.natCast_eq_zero, ← Nat.dvd_iff_mod_eq_zero]; rfl
    by_cases hdv : orderNat n ∣ (messageLetters s.unit).length
    · right
      rw [if_neg (by rw [hd]; simpa using hdv)]
      rcases keyinv_cases n s.unit with ⟨a, b⟩ | ⟨a, x, h1, h2, h3, b⟩
      · left; exact ⟨hdv, a, by rw [b]; rfl⟩
      · right
        refine ⟨hdv, a, x, h1, h2, h3, ?_⟩
        obtain ⟨q, hq⟩ := hdv
        have hl := (transform_spec (scaleMatrix x (adj n (keyMatrix s.unit))) n q _
          (by rw [hq, Nat.mul_comm])).1
        refine ⟨hl, ?_⟩
        rw [b, orRaise_ok]
        refine emitText_eq _ _ ?_
        have := length_messageLetters_le s.unit
        rw [show (messageBytes s.unit).filterMap letterOf = messageLetters s.unit from rfl, hl]
        unfold Config.outCap; omega
    · left; exact ⟨hdv, by rw [if_pos (hd.2 hdv)]; rfl⟩

/-! ## Every command at once -/

/-- What a successful command may have made of the unit's state `u`. -/
inductive Wrote (i : Instr) (u : UnitState) : UnitState → Prop
  | nothing : Wrote i u u
  | kdim (v : Kdim) (m : i.mnemonic = "SETDIM") : Wrote i u { u with kdim := v }
  | k (v : Mat3 Byte) (m : i.mnemonic = "LDK") : Wrote i u { u with k := v }
  | a (v : Word) (m : i.mnemonic = "LDA") : Wrote i u { u with a := v }
  | modulus (v : Word) (m : i.mnemonic = "LDM") : Wrote i u { u with modulus := v }
  | msg (a : Nat) (v : Byte) (m : i.mnemonic = "LDB") (h : a < Config.msgCap) :
      Wrote i u { u with msg := Memory.write u.msg a v }
  | msgLen (v : BitVec 16) (m : i.mnemonic = "SETLEN") (h : v.toNat ≤ Config.msgCap) :
      Wrote i u { u with msgLen := v }
  | adj (M : Mat3 Byte) (m : i.mnemonic = "ADJ") (h : ∀ r c, (matGet M r c).toNat ≤ 25) :
      Wrote i u { u with adj := M }
  | inv (M : Mat3 Byte) (m : i.mnemonic = "KINV") (h : ∀ r c, (matGet M r c).toNat ≤ 25) :
      Wrote i u { u with inv := M }
  | text (T : List Int) (m : i.mnemonic = "ENC" ∨ i.mnemonic = "DEC")
      (h : ∀ v ∈ T, 0 ≤ v ∧ v ≤ 25) (hl : T.length ≤ Config.outCap) : Wrote i u (textUnit u T)

/-- What `exec` can answer. -/
inductive Answers (i : Instr) (s : State) : Prop
  | error (c : BitVec 8) (h0 : c ≠ 0) (h8 : c.toNat ≤ 8) (h4 : c = 4 → i = .modinv)
      (h : exec i s = .next (replyError s c))
  | ok (u : UnitState) (d : Word) (h : exec i s = .next (reply s u 0 d)) (w : Wrote i s.unit u)
  | stop (h : exec i s = .fault .outsideBuffer) (hi : i = .enc ∨ i = .dec)
      (hv : ∃ n, ValidKey n s.unit) (hl : Config.msgCap < s.unit.msgLen.toNat)

/-- A command that starts with the key check. -/
theorem answers_key {i : Instr} {s : State} (f : Order → Result)
    (h : exec i s = orRaise (keycheck s.unit) s f)
    (hf : ∀ n, keycheck s.unit = .ok n → exec i s = f n → Answers i s) : Answers i s := by
  cases hk : keycheck s.unit with
  | error e =>
    obtain ⟨h0, h8, h4⟩ := keyError_code (keycheck_error _ _ hk)
    exact .error _ h0 h8 (fun h => absurd h h4) (by rw [h, hk]; rfl)
  | ok n => exact hf n hk (by rw [h, hk]; rfl)

/-- A command on one entry of a matrix register. -/
theorem answers_entry {i : Instr} {s : State} {r c : BitVec 2} (f : Fin 3 → Fin 3 → Result)
    (h : exec i s = atEntry r c s f) (hf : ∀ a b, exec i s = f a b → Answers i s) :
    Answers i s := by
  rcases atEntry_cases r c s f with ⟨a, b, -, -, e⟩ | ⟨-, e⟩
  · exact hf a b (h.trans e)
  · exact .error 7 (by decide) (by decide) (fun h => absurd h (by decide)) (h.trans e)

/-- A command on one byte of a buffer. -/
theorem answers_byte {α : Type} {i : Instr} {s : State} (r : Option α) (f : α → Result)
    (h : exec i s = orElseRaise r .bufferRange s f)
    (hf : ∀ x, r = some x → exec i s = f x → Answers i s) : Answers i s := by
  cases hr : r with
  | none => exact .error 8 (by decide) (by decide) (fun h => absurd h (by decide)) (by rw [h, hr]; rfl)
  | some x => exact hf x hr (by rw [h, hr]; rfl)

/-- Everything `exec` can answer, for every command in every state. -/
theorem exec_answers (i : Instr) (s : State) : Answers i s := by
  cases i with
  | nop => exact .ok _ _ rfl .nothing
  | setdim a b => exact .ok _ _ rfl (.kdim _ rfl)
  | ldk r c v => exact answers_entry _ rfl fun a b h => .ok _ _ h (.k _ rfl)
  | lda v => exact .ok _ _ rfl (.a _ rfl)
  | ldm v => exact .ok _ _ rfl (.modulus _ rfl)
  | ldb a v =>
    refine answers_byte _ _ rfl fun u hu h => ?_
    unfold writeMsg at hu
    split at hu
    · next ha => cases hu; exact .ok _ _ h (.msg _ _ rfl ha)
    · cases hu
  | setlen v =>
    by_cases h : v.toNat > Config.msgCap
    · refine .error 8 (by decide) (by decide) (fun h => absurd h (by decide)) ?_
      simp only [exec, execSetlen, if_pos h]; rfl
    · refine .ok { s.unit with msgLen := v } 0 ?_ (.msgLen _ rfl (by omega))
      simp only [exec, execSetlen, if_neg h]; rfl
  | rddim => exact .ok _ _ rfl .nothing
  | rdk r c => exact answers_entry _ rfl fun a b h => .ok _ _ h .nothing
  | rda => exact .ok _ _ rfl .nothing
  | rdm => exact .ok _ _ rfl .nothing
  | rdadj r c => exact answers_entry _ rfl fun a b h => .ok _ _ h .nothing
  | rdinv r c => exact answers_entry _ rfl fun a b h => .ok _ _ h .nothing
  | rdlen => exact .ok _ _ rfl .nothing
  | rdolen => exact .ok _ _ rfl .nothing
  | rdb a => exact answers_byte _ _ rfl fun u _ h => .ok _ _ h .nothing
  | rdo a => exact answers_byte _ _ rfl fun u _ h => .ok _ _ h .nothing
  | valk => exact answers_key _ rfl fun n _ h => .ok _ _ h .nothing
  | det => exact answers_key _ rfl fun n _ h => .ok _ _ h .nothing
  | chkinv =>
    refine answers_key _ rfl fun n _ h => ?_
    split at h
    · exact .ok _ _ h .nothing
    · exact .error 3 (by decide) (by decide) (fun h => absurd h (by decide)) h
  | gcd => exact .ok _ _ rfl .nothing
  | modinv =>
    rcases orElseRaise_cases (s := s) (modinv (signedA s.unit) (modulusNat s.unit)) .noModularInverse
      (fun x => respond (zextNat x) s) with ⟨x, -, h⟩ | ⟨-, h⟩
    · exact .ok s.unit _ h .nothing
    · exact .error 4 (by decide) (by decide) (fun _ => rfl) h
  | adj =>
    refine answers_key _ rfl fun n hk _ => .ok _ _ (exec_adj hk) (.adj _ rfl fun r c => ?_)
    have := adj_entry n s.unit r c
    split at this <;> omega
  | kinv =>
    refine answers_key _ rfl fun n hk _ => ?_
    rcases exec_kinv_cases hk with ⟨-, h⟩ | ⟨-, x, -, -, -, h⟩
    · exact .error 3 (by decide) (by decide) (fun h => absurd h (by decide)) h
    · refine .ok _ _ h (.inv _ rfl fun r c => ?_)
      have := kinv_entry n s.unit x r c
      split at this <;> omega
  | enc =>
    rcases exec_enc_cases s with ⟨c, hc, h⟩ | ⟨n, hv, -, ⟨hl, h⟩ | ⟨-, -, h⟩ | ⟨hl, -, h⟩⟩
    · obtain ⟨h0, h8, h4⟩ := keyError_code hc
      exact .error _ h0 h8 (fun h => absurd h h4) h
    · exact .stop h (.inl rfl) ⟨_, hv⟩ hl
    · exact .error 5 (by decide) (by decide) (fun h => absurd h (by decide)) h
    · exact .ok _ _ h (.text _ (.inl rfl) (transform_range _ _ _) (length_encrypted_le _ hl))
  | dec =>
    rcases exec_dec_cases s with ⟨c, hc, h⟩ | ⟨n, hv, -, ⟨hl, h⟩ | ⟨-, -, h⟩ |
      ⟨hl, -, ⟨-, h⟩ | ⟨-, -, h⟩ | ⟨-, -, x, -, -, -, hT, h⟩⟩⟩
    · obtain ⟨h0, h8, h4⟩ := keyError_code hc
      exact .error _ h0 h8 (fun h => absurd h h4) h
    · exact .stop h (.inr rfl) ⟨_, hv⟩ hl
    · exact .error 5 (by decide) (by decide) (fun h => absurd h (by decide)) h
    · exact .error 6 (by decide) (by decide) (fun h => absurd h (by decide)) h
    · exact .error 3 (by decide) (by decide) (fun h => absurd h (by decide)) h
    · refine .ok _ _ h (.text _ (.inr rfl) (transform_range _ _ _) ?_)
      rw [hT]
      have := length_messageLetters_le s.unit
      unfold Config.outCap; omega

/-- Everything `step` can do. -/
theorem step_cases (s : State) :
    (s.inputs = [] ∧ step s = .next s) ∨
    (∃ rest, s.inputs = .reset :: rest ∧ step s = .next { s with unit := UnitState.reset, inputs := rest }) ∨
    (∃ w rest, s.inputs = .command w :: rest ∧
      ((∃ i, decode w = .ok i ∧ step s = exec i { s with inputs := rest }) ∨
       ((∃ r, decode w = .error r) ∧ step s = .next (replyError { s with inputs := rest } 7)))) := by
  cases h : s.inputs with
  | nil => exact .inl ⟨rfl, by simp [step, takeInput_nil s h]⟩
  | cons e rest =>
    cases e with
    | reset => exact .inr (.inl ⟨rest, rfl, by simp [step, takeInput_cons s _ _ h]; rfl⟩)
    | command w =>
      refine .inr (.inr ⟨w, rest, rfl, ?_⟩)
      cases hd : decode w with
      | ok i => exact .inl ⟨i, rfl, by simp [step, takeInput_cons s _ _ h, runWord, hd]⟩
      | error r => exact .inr ⟨⟨r, rfl⟩, by simp [step, takeInput_cons s _ _ h, runWord, hd]⟩

end Sys2Proof.Machine
end

