-- ==== Sys2Proof/Laws/PerInstr.lean ====
section
/-! SUPPORT. The families of LAWS.json: one lemma per constructor of `Instr`. -/

namespace Sys2Proof

/-- The opcode of a command (30_encoding.md R77). -/
def Laws.opcodeOf : Instr → BitVec 8
  | .nop => 0x00
  | .setdim _ _ => 0x01
  | .ldk _ _ _ => 0x02
  | .lda _ => 0x03
  | .ldm _ => 0x04
  | .ldb _ _ => 0x05
  | .setlen _ => 0x06
  | .rddim => 0x10
  | .rdk _ _ => 0x11
  | .rda => 0x12
  | .rdm => 0x13
  | .rdadj _ _ => 0x14
  | .rdinv _ _ => 0x15
  | .rdlen => 0x16
  | .rdolen => 0x17
  | .rdb _ => 0x18
  | .rdo _ => 0x19
  | .valk => 0x20
  | .det => 0x21
  | .chkinv => 0x22
  | .gcd => 0x23
  | .modinv => 0x24
  | .adj => 0x25
  | .kinv => 0x26
  | .enc => 0x27
  | .dec => 0x28

/-- The encoded word carries the command's opcode in bits 31:24 (R70). -/
def Laws.OpcodeBits.Statement (i : Instr) : Prop := opField (encode i) = Laws.opcodeOf i

namespace Laws.OpcodeBits

theorem nop : Statement .nop := opField_encodeN ..
theorem setdim (rows : BitVec 4) (cols : BitVec 4) : Statement (.setdim rows cols) := opField_encodeD ..
theorem ldk (r : BitVec 2) (c : BitVec 2) (v : BitVec 8) : Statement (.ldk r c v) := opField_encodeE ..
theorem lda (v : BitVec 24) : Statement (.lda v) := opField_encodeI24 ..
theorem ldm (v : BitVec 16) : Statement (.ldm v) := opField_encodeI16 ..
theorem ldb (a : BitVec 16) (v : BitVec 8) : Statement (.ldb a v) := opField_encodeB ..
theorem setlen (v : BitVec 16) : Statement (.setlen v) := opField_encodeI16 ..
theorem rddim : Statement .rddim := opField_encodeN ..
theorem rdk (r : BitVec 2) (c : BitVec 2) : Statement (.rdk r c) := opField_encodeER ..
theorem rda : Statement .rda := opField_encodeN ..
theorem rdm : Statement .rdm := opField_encodeN ..
theorem rdadj (r : BitVec 2) (c : BitVec 2) : Statement (.rdadj r c) := opField_encodeER ..
theorem rdinv (r : BitVec 2) (c : BitVec 2) : Statement (.rdinv r c) := opField_encodeER ..
theorem rdlen : Statement .rdlen := opField_encodeN ..
theorem rdolen : Statement .rdolen := opField_encodeN ..
theorem rdb (a : BitVec 16) : Statement (.rdb a) := opField_encodeBR ..
theorem rdo (a : BitVec 16) : Statement (.rdo a) := opField_encodeBR ..
theorem valk : Statement .valk := opField_encodeN ..
theorem det : Statement .det := opField_encodeN ..
theorem chkinv : Statement .chkinv := opField_encodeN ..
theorem gcd : Statement .gcd := opField_encodeN ..
theorem modinv : Statement .modinv := opField_encodeN ..
theorem adj : Statement .adj := opField_encodeN ..
theorem kinv : Statement .kinv := opField_encodeN ..
theorem enc : Statement .enc := opField_encodeN ..
theorem dec : Statement .dec := opField_encodeN ..

end Laws.OpcodeBits

end Sys2Proof
end

