-- ==== Sys2Proof/Tests/Slice0.lean ====
section
/-! SUPPORT. Tests. Every expected value is the spec's: the tables and examples of
95_test_vectors.md (V1 … V16, T1 … T9) and the worked encodings of 30_encoding.md. After them, for
every statement of Obligations.lean that has hypotheses, a witness that meets them all. -/

open Sys2Proof Sys2Proof.Machine

namespace Sys2Proof.Tests

/-! ## Well-formedness: each check refuses its ill-formed term (R79 (b), R82) -/

theorem test_wf_ldk_r3 : WellFormed (.ldk 3 0 5) = false := by decide
theorem test_wf_ldk_c3 : WellFormed (.ldk 0 3 5) = false := by decide
theorem test_wf_rdk_r3 : WellFormed (.rdk 3 0) = false := by decide
theorem test_wf_rdk_c3 : WellFormed (.rdk 0 3) = false := by decide
theorem test_wf_rdadj_r3 : WellFormed (.rdadj 3 2) = false := by decide
theorem test_wf_rdadj_c3 : WellFormed (.rdadj 2 3) = false := by decide
theorem test_wf_rdinv_r3 : WellFormed (.rdinv 3 1) = false := by decide
theorem test_wf_rdinv_c3 : WellFormed (.rdinv 1 3) = false := by decide
theorem test_wf_accepts : WellFormed (.ldk 2 2 255) = true ∧ WellFormed (.setdim 15 15) = true := by
  decide

/-! ## Decoding: bit by bit, one word a format (R71 to R76) -/

theorem test_bits_n : decode 0b00100110_000000000000000000000000 = .ok .kinv := by decide
theorem test_bits_d : decode 0b00000001_0000000000000000_0011_0010 = .ok (.setdim 2 3) := by decide
theorem test_bits_e : decode 0b00000010_000000000000_01_10_00001010 = .ok (.ldk 1 2 10) := by decide
theorem test_bits_er : decode 0b00010101_000000000000_10_01_00000000 = .ok (.rdinv 2 1) := by decide
theorem test_bits_i24 : decode 0b00000011_111111111111111110011101 = .ok (.lda (-99)) := by decide
theorem test_bits_i16 : decode 0b00000100_00000000_0000000000011010 = .ok (.ldm 26) := by decide
theorem test_bits_b : decode 0b00000101_0000000000000010_01010100 = .ok (.ldb 2 0x54) := by decide
theorem test_bits_br : decode 0b00011001_0000000100000001_00000000 = .ok (.rdo 257) := by decide

/-! ## Decoding: every constructor (T1) -/

theorem test_decode_loads :
    decode 0x00000000 = .ok .nop ∧ decode 0x010000FF = .ok (.setdim 15 15) ∧
    decode 0x02000AFF = .ok (.ldk 2 2 255) ∧ decode 0x03800000 = .ok (.lda (-8388608)) ∧
    decode 0x0400FFFF = .ok (.ldm 65535) ∧ decode 0x0500FF41 = .ok (.ldb 255 0x41) ∧
    decode 0x06000100 = .ok (.setlen 256) := by decide
theorem test_decode_reads :
    decode 0x10000000 = .ok .rddim ∧ decode 0x11000600 = .ok (.rdk 1 2) ∧
    decode 0x12000000 = .ok .rda ∧ decode 0x13000000 = .ok .rdm ∧
    decode 0x14000100 = .ok (.rdadj 0 1) ∧ decode 0x15000A00 = .ok (.rdinv 2 2) ∧
    decode 0x16000000 = .ok .rdlen ∧ decode 0x17000000 = .ok .rdolen ∧
    decode 0x18000200 = .ok (.rdb 2) ∧ decode 0x19000500 = .ok (.rdo 5) := by decide
theorem test_decode_computes :
    decode 0x20000000 = .ok .valk ∧ decode 0x21000000 = .ok .det ∧ decode 0x22000000 = .ok .chkinv ∧
    decode 0x23000000 = .ok .gcd ∧ decode 0x24000000 = .ok .modinv ∧ decode 0x25000000 = .ok .adj ∧
    decode 0x26000000 = .ok .kinv ∧ decode 0x27000000 = .ok .enc ∧
    decode 0x28000000 = .ok .dec := by decide
theorem test_decode_opcode_refused :
    ([0x07000000, 0x0F000000, 0x1A000000, 0x1F000000, 0x29000000, 0x80000000, 0xFFFFFFFF].map decode) =
      List.replicate 7 (.error .illegalOpcode) := by decide +kernel
theorem test_decode_reserved_refused :
    ([0x00000001, 0x20000001, 0x27800000, 0x01000122, 0x02001005, 0x11000107, 0x04010000,
      0x06010000, 0x18000001, 0x19000080].map decode) =
      List.replicate 10 (.error .reservedBit) := by decide +kernel
theorem test_decode_index_refused :
    ([0x02000C05, 0x02000305, 0x15000F00].map decode) =
      List.replicate 3 (.error .illegalIndex) := by decide +kernel
theorem test_encode :
    encode (.setdim 2 3) = 0x01000032 ∧ encode (.ldk 1 2 10) = 0x0200060A ∧
    encode (.lda (-99)) = 0x03FFFF9D ∧ encode (.setlen 3) = 0x06000003 ∧
    encode (.rdadj 0 1) = 0x14000100 ∧ encode (.ldb 2 0x54) = 0x05000254 ∧
    encode (.rdb 255) = 0x1800FF00 ∧ encode .dec = 0x28000000 := by decide
theorem test_table_word : decodeTableWord 32 0x0200060A = some (.ldk 1 2 10) ∧
    decodeTableWord 32 0x29000000 = none := by decide
/-- 20_memory.md R55: the four bytes of a command word, bits 7:0 first. -/
theorem test_channel : channelBytes 0x0200060A = [0x0A, 0x06, 0x00, 0x02] ∧
    channelWord 0x0A 0x06 0x00 0x02 = 0x0200060A := by decide

/-! ## The assembler (30_encoding.md R83, R84) -/

theorem test_asm_commands :
    assemble "LDK 1, 2, 10 ; an entry\nLDA -99\nLDB 2, 'T'\nLDM 0x1A\nRDO 257\nKINV" =
      some [0x0200060A, 0x03FFFF9D, 0x05000254, 0x0400001A, 0x19010100, 0x26000000] := by
  decide +kernel
theorem test_asm_pseudo :
    assemble "KEY2 3, 3, 2, 5\nMSG \"HI\"\nMSG \"\"" =
      some [0x01000022, 0x02000003, 0x02000103, 0x02000402, 0x02000505,
        0x05000048, 0x05000149, 0x06000002, 0x06000000] := by decide +kernel
theorem test_asm_out_of_range :
    ∀ l ∈ ["SETDIM 16, 0", "LDK 3, 0, 1", "LDA 8388608", "LDM 65536", "RDK 0, 3", "LDB 0, 256",
      "KEY2 1, 2, 3", "LDM -1"], assemble l = none := by decide +kernel

/-! ## One step of each command -/

/-- The textbook key of 95_test_vectors.md. -/
def keyT : Mat3 Byte := ⟨⟨6, 24, 1⟩, ⟨13, 16, 10⟩, ⟨20, 17, 15⟩⟩
/-- `K2` of 95_test_vectors.md. -/
def key2x2 (a b c d : Byte) : Mat3 Byte := ⟨⟨a, b, 0⟩, ⟨c, d, 0⟩, ⟨0, 0, 0⟩⟩

/-- A reset machine with the key `k` of declared order `n`. -/
def keyed (n : BitVec 4) (k : Mat3 Byte) : State :=
  { State.reset with unit := { UnitState.reset with kdim := ⟨n, n⟩, k := k } }
/-- That machine with a message. -/
def withMessage (s : State) (bytes : List Byte) : State :=
  { s with
    unit := { s.unit with
      msg := Memory.writeAll [] 0 bytes
      msgLen := BitVec.ofNat 16 bytes.length } }
/-- A reset machine with the operands of GCD and MODINV. -/
def operands (a : Int) (m : Nat) : State :=
  { State.reset with
    unit := { UnitState.reset with a := BitVec.ofInt 32 a, modulus := BitVec.ofNat 32 m } }

/-- The machine a meaning goes on in. -/
def after (r : Result) : State :=
  match r with
  | .next t => t
  | .fault _ => State.reset
  | .refused _ => State.reset
/-- Whether a meaning goes on. -/
def goesOn (r : Result) : Bool :=
  match r with
  | .next _ => true
  | .fault _ => false
  | .refused _ => false
theorem next_after {r : Result} (h : goesOn r = true) : r = .next (after r) := by
  cases r with
  | next t => rfl
  | fault f => cases h
  | refused f => cases h
/-- The last response of the machine a meaning goes on in. -/
def answer (r : Result) : Option Response := (after r).responses.getLast?
/-- The result text of the machine a meaning goes on in. -/
def result (r : Result) : List Byte :=
  (List.range (after r).unit.outLen.toNat).map (Memory.read (after r).unit.out)

/-- The character codes of a text. -/
def ascii (t : String) : List Byte := t.toList.map fun c => BitVec.ofNat 8 c.toNat

theorem test_nop : after (exec .nop State.reset) = { State.reset with responses := [⟨0, 0⟩] } := by
  decide
theorem test_setdim : (after (exec (.setdim 2 3) State.reset)).unit.kdim = ⟨2, 3⟩ := by decide
theorem test_ldk : (after (exec (.ldk 1 2 10) State.reset)).unit.k =
    ⟨⟨0, 0, 0⟩, ⟨0, 0, 10⟩, ⟨0, 0, 0⟩⟩ := by decide
theorem test_ldk_keeps_large : (after (exec (.ldk 2 2 255) State.reset)).unit.k =
    ⟨⟨0, 0, 0⟩, ⟨0, 0, 0⟩, ⟨0, 0, 255⟩⟩ := by decide
theorem test_lda_negative : (after (exec (.lda 0xFFFF9D) State.reset)).unit.a = 0xFFFFFF9D := by decide
theorem test_lda_positive : (after (exec (.lda 0x7FFFFF) State.reset)).unit.a = 0x007FFFFF := by decide
theorem test_ldm : (after (exec (.ldm 65535) State.reset)).unit.modulus = 0x0000FFFF := by decide
theorem test_ldb : (after (exec (.ldb 255 0x41) State.reset)).unit.msg = [(255, 0x41)] := by decide
theorem test_ldb_beyond : after (exec (.ldb 256 0x41) State.reset) =
    { State.reset with responses := [⟨8, 0⟩] } := by decide
theorem test_setlen : (after (exec (.setlen 256) State.reset)).unit.msgLen = 256 := by decide
theorem test_setlen_beyond : after (exec (.setlen 257) State.reset) =
    { State.reset with responses := [⟨8, 0⟩] } := by decide
theorem test_rddim : answer (exec .rddim { State.reset with
    unit := { UnitState.reset with kdim := ⟨2, 3⟩ } }) = some ⟨0, 0x32⟩ := by decide
theorem test_rdk : answer (exec (.rdk 1 2) (keyed 3 keyT)) = some ⟨0, 10⟩ := by decide
theorem test_rda : answer (exec .rda (operands (-1) 26)) = some ⟨0, 0xFFFFFFFF⟩ := by decide
theorem test_rdm : answer (exec .rdm State.reset) = some ⟨0, 26⟩ := by decide
theorem test_rdadj : answer (exec (.rdadj 0 1) (after (exec .adj (keyed 3 keyT)))) =
    some ⟨0, 21⟩ := by decide
theorem test_rdinv : answer (exec (.rdinv 2 1) (after (exec .kinv (keyed 3 keyT)))) =
    some ⟨0, 12⟩ := by decide +kernel
theorem test_rdlen : answer (exec .rdlen (withMessage State.reset (ascii "ACT"))) =
    some ⟨0, 3⟩ := by decide +kernel
theorem test_rdolen : answer (exec .rdolen State.reset) = some ⟨0, 0⟩ := by decide
theorem test_rdb : answer (exec (.rdb 2) (withMessage State.reset (ascii "ACT"))) =
    some ⟨0, 0x54⟩ := by decide +kernel
theorem test_rdb_beyond : answer (exec (.rdb 256) State.reset) = some ⟨8, 0⟩ := by decide
theorem test_rdo_last : answer (exec (.rdo 257) State.reset) = some ⟨0, 0⟩ := by decide
theorem test_rdo_beyond : answer (exec (.rdo 258) State.reset) = some ⟨8, 0⟩ := by decide

/-- T3: `[[1,2],[3,4]]` with `K[2][2] = 200`: the outer entry is ignored. -/
theorem test_valk : answer (exec .valk (keyed 2 ⟨⟨1, 2, 0⟩, ⟨3, 4, 0⟩, ⟨0, 0, 200⟩⟩)) =
    some ⟨0, 2⟩ := by decide
theorem test_valk_errors :
    answer (exec .valk (keyed 4 keyT)) = some ⟨2, 0⟩ ∧
    answer (exec .valk (after (exec (.setdim 0 4) State.reset))) = some ⟨1, 0⟩ ∧
    answer (exec .valk (keyed 2 (key2x2 1 2 3 26))) = some ⟨1, 0⟩ := by decide
theorem test_det : answer (exec .det (keyed 3 keyT)) = some ⟨0, 441⟩ := by decide
theorem test_det_negative :
    answer (exec .det (keyed 3 ⟨⟨25, 0, 25⟩, ⟨0, 25, 25⟩, ⟨25, 25, 0⟩⟩)) =
      some ⟨0, 0xFFFF85EE⟩ := by decide
theorem test_chkinv : answer (exec .chkinv (keyed 2 (key2x2 5 8 17 3))) = some ⟨0, 9⟩ := by decide
theorem test_chkinv_thirteen : answer (exec .chkinv (keyed 2 (key2x2 1 0 0 13))) =
    some ⟨3, 0⟩ := by decide

theorem test_gcd : answer (exec .gcd (operands 10 65535)) = some ⟨0, 5⟩ := by decide +kernel
theorem test_gcd_zero : answer (exec .gcd (operands 0 0)) = some ⟨0, 0⟩ ∧
    answer (exec .gcd (operands (-8388608) 26)) = some ⟨0, 2⟩ := by decide +kernel
theorem test_modinv : answer (exec .modinv (operands (-99) 26)) = some ⟨0, 21⟩ := by decide +kernel
theorem test_modinv_none : answer (exec .modinv (operands 1 1)) = some ⟨4, 0⟩ ∧
    answer (exec .modinv (operands 13 26)) = some ⟨4, 0⟩ := by decide +kernel

theorem test_adj : (after (exec .adj (keyed 3 keyT))).unit.adj =
    ⟨⟨18, 21, 16⟩, ⟨5, 18, 5⟩, ⟨5, 14, 18⟩⟩ := by decide
/-- T5: a singular key has an adjugate; outside the order the entries are 0. -/
theorem test_adj_singular : (after (exec .adj (keyed 2 (key2x2 2 4 6 8)))).unit.adj =
    ⟨⟨8, 22, 0⟩, ⟨20, 2, 0⟩, ⟨0, 0, 0⟩⟩ := by decide
theorem test_kinv : (after (exec .kinv (keyed 3 keyT))).unit.inv =
    ⟨⟨8, 5, 10⟩, ⟨21, 8, 21⟩, ⟨21, 12, 8⟩⟩ := by decide +kernel
theorem test_kinv_singular : after (exec .kinv (keyed 2 (key2x2 1 0 0 13))) =
    { keyed 2 (key2x2 1 0 0 13) with responses := [⟨3, 0⟩] } := by decide +kernel

/-- T7: lower case and space, padding with two letters. -/
theorem test_enc : result (exec .enc (withMessage (keyed 3 keyT) (ascii "hello world"))) =
    ascii "TFJIPIJSGTNC" := by decide +kernel
/-- V6. -/
theorem test_enc_punctuation : answer (exec .enc (withMessage (keyed 3 keyT) (ascii "HI!"))) =
    some ⟨5, 0⟩ := by decide +kernel
/-- V2. -/
theorem test_dec : result (exec .dec (withMessage (keyed 3 keyT) (ascii "POH"))) =
    ascii "ACT" := by decide +kernel
/-- V16, and T7's singular key: the length is checked before the key is inverted. -/
theorem test_dec_length :
    answer (exec .dec (withMessage (keyed 3 keyT) (ascii "POHA"))) = some ⟨6, 0⟩ ∧
    answer (exec .dec (withMessage (keyed 2 (key2x2 2 4 6 8)) (ascii "HIO"))) = some ⟨6, 0⟩ ∧
    answer (exec .dec (keyed 2 (key2x2 2 4 6 8))) = some ⟨3, 0⟩ := by decide +kernel

/-! ## Steps -/

theorem test_step_fetch : step (State.reset.withFetchWord 32 0x010000FF) =
    exec (.setdim 15 15) State.reset := by rfl
theorem test_step_illegal : after (step (State.reset.withFetchWord 32 0x02000C05)) =
    { State.reset with responses := [⟨7, 0⟩] } := by decide
theorem test_step_reset : after (step
    { operands 5 7 with inputs := [.reset], responses := [⟨0, 0⟩] }) =
    { State.reset with responses := [⟨0, 0⟩] } := by decide
theorem test_response_bits : responseBits ⟨3, 0x1F⟩ = 0x030000001F#40 := by decide

/-! ## Witnesses: concrete states and operands that meet a statement's hypotheses together -/

/-- A machine in use: key `K2`, message "HI", its ciphertext "TC" in `OUT`, the adjugate and the
inverse of the key in `ADJ` and `INV`, an ENC and a reset still to come. -/
def inUse : State where
  unit :=
    { kdim := ⟨2, 2⟩, k := key2x2 3 3 2 5, a := 0xFFFFFF9D, modulus := 26,
      adj := key2x2 5 23 24 3, inv := key2x2 15 17 20 9,
      msg := [(0, 0x48), (1, 0x49)], msgLen := 2, out := [(0, 0x54), (1, 0x43)], outLen := 2 }
  inputs := [.command 0x27000000, .reset]
  responses := [⟨0, 2⟩]

theorem witness_inv : UnitInv inUse.unit where
  adjRange := by decide
  invRange := by decide
  msgLenBound := by decide
  outLenBound := by decide
  outLetters := by
    intro a ha
    have h : a = 0 ∨ a = 1 := by
      have : a < 2 := ha
      omega
    rcases h with rfl | rfl <;> exact ⟨by decide, by decide⟩
  outBytes := by
    intro a
    match a with
    | 0 => exact .inr ⟨by decide, by decide⟩
    | 1 => exact .inr ⟨by decide, by decide⟩
    | _ + 2 => exact .inl rfl
  msgWf := by decide
  outWf := by decide
  msgWithin := by decide
  outWithin := by decide

theorem witness_EncodedCommandDecodesToItself :
    WellFormed (.ldk 2 0 255) = true ∧ WellFormed (.rdinv 0 2) = true := by decide
theorem witness_DecodedWordIsTheEncoding : decode 0x1500_0900 = .ok (.rdinv 2 1) := by decide
/-- A row, a word that spells it and one that does not (`r = 3`). -/
theorem witness_DecoderAgreesWithOpcodeMap : ∃ row ∈ opcodeTable, row.mnemonic = "LDK" ∧
    row.spells 0x02000AFF = true ∧ row.spells 0x02000C05 = false := by
  decide +kernel
/-- Both ends of each of the three ranges of opcodes. -/
theorem witness_UnassignedOpcodeIsIllegal :
    ([0x07000000, 0x0FFFFFFF, 0x1A000000, 0x1FFFFFFF, 0x29000000, 0xFFFFFFFF].all fun w =>
      decide (({ inUse with inputs := [.command w, .reset] } : State).inputs = .command w :: [.reset] ∧
      ((0x07 ≤ (opField w).toNat ∧ (opField w).toNat ≤ 0x0F) ∨
        (0x1A ≤ (opField w).toNat ∧ (opField w).toNat ≤ 0x1F) ∨ 0x29 ≤ (opField w).toNat))) =
      true := by
  decide +kernel
/-- LDK with a reserved bit; LDK with `r = 3`; RDINV with `c = 3`. -/
theorem witness_ReservedBitOrIndexThreeIsIllegal :
    ∀ p ∈ [("LDK", 0x02001005), ("LDK", 0x02000C05), ("RDINV", 0x15000300)],
      ∃ row ∈ opcodeTable, row.mnemonic = p.1 ∧
        ({ inUse with inputs := [.command p.2] } : State).inputs = .command p.2 :: [] ∧
        opField p.2 = opField row.pattern ∧
        (p.2 &&& (row.mask &&& ~~~row.pattern) ≠ 0 ∨
          (row.indexed = true ∧ (rField p.2 = 3 ∨ cField p.2 = 3))) := by decide +kernel
theorem witness_AssemblerEmitsOnlyCommands :
    assembleLine "LDK 2, 2, 255".toList = some [.ldk 2 2 255] ∧
    assembleLine "MSG \"HI\"".toList = some [.ldb 0 0x48, .ldb 1 0x49, .setlen 2] := by decide +kernel
theorem witness_StepRunsTheDecodedCommand :
    inUse.inputs = .command 0x27000000 :: [.reset] ∧ decode 0x27000000 = .ok .enc := by decide
theorem witness_ResetEventResetsTheUnit :
    ({ inUse with inputs := [.reset, .command 0] } : State).inputs = .reset :: [.command 0] := by decide
theorem witness_IdleStepHoldsTheState : ({ inUse with inputs := [] } : State).inputs = [] := by decide
theorem witness_StepKeepsTheRangeInvariant :
    UnitInv inUse.unit ∧ step inUse = .next (after (step inUse)) ∧
      (after (step inUse)).inputs = [.reset] :=
  ⟨witness_inv, next_after (by decide +kernel), by decide +kernel⟩
theorem witness_EveryStepCompletes : UnitInv inUse.unit := witness_inv
theorem witness_RunAnswersEveryCommandOnce :
    UnitInv inUse.unit ∧ inUse.inputs.length = 2 ∧ commandCount inUse.inputs = 1 :=
  ⟨witness_inv, by decide⟩
/-- The stop is there at `MSGLEN` 257 and is not at 256 (no legal message there, so code 5). -/
theorem witness_OnlyOversizeMessageStops :
    ValidKey 2 inUse.unit ∧
    exec .enc { inUse with unit := { inUse.unit with msgLen := 257 } } = .fault .outsideBuffer ∧
    answer (exec .dec { inUse with unit := { inUse.unit with msgLen := 256 } }) = some ⟨5, 0⟩ :=
  ⟨by unfold ValidKey; decide, by rfl, by decide +kernel⟩
/-- A command that succeeds and one that fails. -/
theorem witness_OneResponseAndNoChangeOnError :
    exec .enc inUse = .next (after (exec .enc inUse)) ∧ answer (exec .enc inUse) = some ⟨0, 2⟩ ∧
    exec (.rdb 256) inUse = .next (after (exec (.rdb 256) inUse)) ∧
    answer (exec (.rdb 256) inUse) = some ⟨8, 0⟩ :=
  ⟨next_after (by decide +kernel), by decide +kernel, next_after (by decide), by decide⟩
/-- A command that writes: SETDIM changes `KDIM`. -/
theorem witness_OnlyTheNamedCommandsWrite :
    exec (.setdim 3 2) inUse = .next (after (exec (.setdim 3 2) inUse)) ∧
    (after (exec (.setdim 3 2) inUse)).unit.kdim ≠ inUse.unit.kdim :=
  ⟨next_after (by decide), by decide⟩
theorem witness_RepeatedCommandGivesTheSameAgain :
    UnitInv inUse.unit ∧
    exec (.ldb 255 0x41) inUse = .next (reply inUse
      { inUse.unit with msg := [(0, 0x48), (1, 0x49), (255, 0x41)] } 0 0) :=
  ⟨witness_inv, by rfl⟩
/-- Two units with the same key, `A`, `MOD` and message bytes and different `ADJ` and buffers. -/
theorem witness_ComputeResultDependsOnItsOperands :
    let s' : State :=
      { inUse with unit :=
        { inUse.unit with adj := zeroMatrix, msg := [(0, 0x48), (1, 0x49), (7, 1)], out := [], outLen := 0 } }
    UnitInv inUse.unit ∧ UnitInv s'.unit ∧ inUse.unit.kdim = s'.unit.kdim ∧
      inUse.unit.k = s'.unit.k ∧ inUse.unit.a = s'.unit.a ∧ inUse.unit.modulus = s'.unit.modulus ∧
      messageBytes inUse.unit = messageBytes s'.unit ∧
      answer (exec .adj inUse) = some ⟨0, 0⟩ ∧ answer (exec .gcd inUse) = some ⟨0, 1⟩ ∧
      answer (exec .enc inUse) = some ⟨0, 2⟩ := by
  refine ⟨witness_inv, ?_, rfl, rfl, rfl, rfl, rfl, by decide, by decide +kernel, by decide +kernel⟩
  exact
    { adjRange := by decide, invRange := by decide, msgLenBound := by decide, outLenBound := by decide
      outLetters := fun a ha => absurd ha (Nat.not_lt_zero a), outBytes := fun _ => .inl rfl
      msgWf := by decide, outWf := by decide, msgWithin := by decide, outWithin := by decide }
/-- The last legal index and the illegal one: `LdkLoadsOneKeyEntry`, `MatrixReadsReturnTheEntry`. -/
theorem witness_indices : ((2 : BitVec 2) ≠ 3 ∧ (0 : BitVec 2) ≠ 3) ∧
    (2 : BitVec 2).toNat = (2 : Fin 3).val ∧ ((3 : BitVec 2) = 3 ∨ (1 : BitVec 2) = 3) := by decide
/-- The last address and length inside and the first outside, 255 and 256, 256 and 257, 257 and 258:
`LdbStoresOneMessageByte`, `SetlenWritesABoundedLength`, `BufferReadsReturnTheByte`. -/
theorem witness_bounds : Memory.wf inUse.unit.msg = true ∧
    (255 : BitVec 16).toNat < Config.msgCap ∧ Config.msgCap ≤ (256 : BitVec 16).toNat ∧
    (256 : BitVec 16).toNat ≤ Config.msgCap ∧ Config.msgCap < (257 : BitVec 16).toNat ∧
    (257 : BitVec 16).toNat < Config.msgCap + 2 ∧ Config.msgCap + 2 ≤ (258 : BitVec 16).toNat := by
  decide
/-- Each way a key fails: not square; order 0, 1 and 4; an entry of 26 in the last corner inside. -/
theorem witness_InvalidKeyFailsEveryKeyCommand :
    KeyError { inUse.unit with kdim := ⟨2, 3⟩ } 1 ∧ KeyError UnitState.reset 2 ∧
    KeyError { inUse.unit with kdim := ⟨1, 1⟩ } 2 ∧ KeyError { inUse.unit with kdim := ⟨4, 4⟩ } 2 ∧
    KeyError (keyed 2 (key2x2 1 2 3 26)).unit 1 :=
  ⟨.inl (by decide), .inr (.inl (by decide)), .inr (.inl (by decide)), .inr (.inl (by decide)),
    .inr (.inr (by decide))⟩
/-- A key of each order, with entries at the upper bound; 26 outside the order plays no part:
`ValkReturnsTheOrder`, `DetReturnsTheDeterminant`, `DeterminantStaysInRange`, `AdjWritesTheAdjugate`. -/
theorem witness_ValidKey : ValidKey 2 (keyed 2 ⟨⟨25, 25, 26⟩, ⟨25, 24, 0⟩, ⟨0, 0, 200⟩⟩).unit ∧
    ValidKey 3 (keyed 3 keyT).unit := by unfold ValidKey; decide
/-- An invertible determinant and, for the other clause, the determinants 13 and 0. -/
theorem witness_ChkinvReturnsTheReducedDeterminant :
    keyDet 2 inUse.unit % 26 ∈ [1, 3, 5, 7, 9, 11, 15, 17, 19, 21, 23, 25] ∧
    ValidKey 2 (keyed 2 (key2x2 1 0 0 13)).unit ∧
    keyDet 2 (keyed 2 (key2x2 1 0 0 13)).unit % 26 ∉ [1, 3, 5, 7, 9, 11, 15, 17, 19, 21, 23, 25] :=
  ⟨by decide, by unfold ValidKey; decide, by decide⟩
theorem witness_GcdReturnsTheGreatestCommonDivisor :
    ((operands 0 0).unit.a = 0 ∧ (operands 0 0).unit.modulus = 0) ∧
    (operands 12 0).unit.a ≠ 0 := by decide
/-- An inverse at the lower and at the upper end of its range; no inverse for `MOD` 1. -/
theorem witness_ModinvReturnsTheInverse :
    ((1 : Nat) < (operands 1 2).unit.modulus.toNat ∧
      ((operands 1 2).unit.a.toInt * (1 : Nat)) % ((operands 1 2).unit.modulus.toNat : Int) = 1) ∧
    ((25 : Nat) < (operands (-1) 26).unit.modulus.toNat ∧
      ((operands (-1) 26).unit.a.toInt * (25 : Nat)) %
        ((operands (-1) 26).unit.modulus.toNat : Int) = 1) ∧
    (∀ x : Nat, 1 ≤ x → x < (operands 1 1).unit.modulus.toNat →
      ((operands 1 1).unit.a.toInt * x) % ((operands 1 1).unit.modulus.toNat : Int) ≠ 1) := by
  refine ⟨by decide +kernel, by decide +kernel, fun x h1 hx => ?_⟩
  have : x < 1 := hx
  omega
/-- `MOD` 2, the smallest with an inverse; `MOD` 1; a common factor. -/
theorem witness_ModinvSucceedsExactlyWhenCoprime :
    (2 ≤ (operands 1 2).unit.modulus.toNat ∧
      Nat.gcd (operands 1 2).unit.a.toInt.natAbs (operands 1 2).unit.modulus.toNat = 1) ∧
    (operands 1 1).unit.modulus.toNat < 2 ∧
    Nat.gcd (operands 13 26).unit.a.toInt.natAbs (operands 13 26).unit.modulus.toNat ≠ 1 := by
  decide +kernel
theorem witness_NoModularInverseComesOnlyFromModinv : exec .modinv (operands 13 26) =
    .next (reply (operands 13 26) (operands 13 26).unit 4 0) := by rfl
theorem witness_AdjugateTimesKeyIsTheDeterminant : ValidKey 3 (keyed 3 keyT).unit ∧
    exec .adj (keyed 3 keyT) = .next (after (exec .adj (keyed 3 keyT))) :=
  ⟨by unfold ValidKey; decide, next_after (by decide)⟩
/-- The inverse 3 of the determinant 9 of `K2`; the determinant 13 for the other clause. -/
theorem witness_KinvWritesTheScaledAdjugate : ValidKey 2 inUse.unit ∧
    Int.gcd (keyDet 2 inUse.unit) 26 = 1 ∧ (keyDet 2 inUse.unit * (3 : Nat)) % 26 = 1 ∧
    ValidKey 2 (keyed 2 (key2x2 1 0 0 13)).unit ∧
    Int.gcd (keyDet 2 (keyed 2 (key2x2 1 0 0 13)).unit) 26 ≠ 1 :=
  ⟨by unfold ValidKey; decide, by decide +kernel, by decide, by unfold ValidKey; decide,
    by decide +kernel⟩
/-- Also meets the hypotheses of `KinvWritesTheInverseModulo26`. -/
theorem witness_KinvIsAnInvolution : ValidKey 3 (keyed 3 keyT).unit ∧
    Int.gcd (keyDet 3 (keyed 3 keyT).unit) 26 = 1 ∧
    exec .kinv (keyed 3 keyT) = .next (after (exec .kinv (keyed 3 keyT))) ∧
    (keyed 3 ⟨⟨8, 5, 10⟩, ⟨21, 8, 21⟩, ⟨21, 12, 8⟩⟩).unit.kdim = (keyed 3 keyT).unit.kdim ∧
    (keyed 3 ⟨⟨8, 5, 10⟩, ⟨21, 8, 21⟩, ⟨21, 12, 8⟩⟩).unit.k =
      (after (exec .kinv (keyed 3 keyT))).unit.inv :=
  ⟨by unfold ValidKey; decide, by decide +kernel, next_after (by decide +kernel), by decide,
    by decide +kernel⟩
/-- A message with a space and a lower-case letter, and the empty message. -/
theorem witness_EncWritesTheCiphertext :
    let s := withMessage (keyed 2 (key2x2 3 3 2 5)) (ascii "A z")
    ValidKey 2 s.unit ∧ s.unit.msgLen.toNat ≤ Config.msgCap ∧ Memory.wf s.unit.out = true ∧
      (∀ b ∈ messageBytes s.unit, LegalByte b) ∧
      ∀ b ∈ messageBytes (keyed 2 (key2x2 3 3 2 5)).unit, LegalByte b :=
  ⟨by unfold ValidKey; decide +kernel, by decide +kernel, by decide +kernel,
    by unfold LegalByte; decide +kernel, by unfold LegalByte; decide +kernel⟩
theorem witness_DecWritesThePlaintext :
    let s := withMessage (keyed 3 keyT) (ascii "PO H")
    ValidKey 3 s.unit ∧ Int.gcd (keyDet 3 s.unit) 26 = 1 ∧ s.unit.msgLen.toNat ≤ Config.msgCap ∧
      Memory.wf s.unit.out = true ∧ (∀ b ∈ messageBytes s.unit, LegalByte b) ∧
      3 ∣ (messageLetters s.unit).length :=
  ⟨by unfold ValidKey; decide +kernel, by decide +kernel, by decide +kernel, by decide +kernel,
    by unfold LegalByte; decide +kernel, by decide +kernel⟩
/-- One message for each of the three errors. -/
theorem witness_CipherErrorsComeInOrder :
    let singular := keyed 2 (key2x2 2 4 6 8)
    ValidKey 2 singular.unit ∧
      (∃ b ∈ messageBytes (withMessage singular (ascii "HI!")).unit, ¬ LegalByte b) ∧
      (∀ b ∈ messageBytes (withMessage singular (ascii "HIO")).unit, LegalByte b) ∧
      ¬ 2 ∣ (messageLetters (withMessage singular (ascii "HIO")).unit).length ∧
      2 ∣ (messageLetters singular.unit).length ∧ Int.gcd (keyDet 2 singular.unit) 26 ≠ 1 :=
  ⟨by unfold ValidKey; decide, by unfold LegalByte; decide +kernel,
    by unfold LegalByte; decide +kernel, by decide +kernel, by decide +kernel, by decide +kernel⟩
/-- `inUse` encrypts "HI" to "TC"; the second machine holds "TC" as its message. -/
theorem witness_DecryptingTheCiphertextGivesThePaddedMessage :
    let t := after (exec .enc inUse)
    let s' := withMessage (keyed 2 (key2x2 3 3 2 5)) (ascii "TC")
    ValidKey 2 inUse.unit ∧ Int.gcd (keyDet 2 inUse.unit) 26 = 1 ∧
      inUse.unit.msgLen.toNat ≤ Config.msgCap ∧ Memory.wf inUse.unit.out = true ∧
      (∀ b ∈ messageBytes inUse.unit, LegalByte b) ∧ exec .enc inUse = .next t ∧
      s'.unit.kdim = inUse.unit.kdim ∧ s'.unit.k = inUse.unit.k ∧ Memory.wf s'.unit.out = true ∧
      s'.unit.msgLen = t.unit.outLen ∧ s'.unit.msgLen.toNat ≤ Config.msgCap ∧
      ∀ a, a < t.unit.outLen.toNat → Memory.read s'.unit.msg a = Memory.read t.unit.out a :=
  ⟨by unfold ValidKey; decide, by decide +kernel, by decide, by decide,
    by unfold LegalByte; decide, next_after (by decide +kernel), by decide, by decide, by decide,
    by decide +kernel, by decide +kernel, by decide +kernel⟩

end Sys2Proof.Tests
end

section
/-! PROOFS, family 00_scope.md: one step and the run (O8, O10, O17), and what a compute command's
answer depends on (O20). The invariant lemmas (`unitInv_reset`, `UnitInv.wrote`, `exec_unitInv`) and
the frame of one event (`step_event`) are stated once, for every proof about steps. -/

namespace Sys2Proof.Machine

/-! ## The range invariant along a step (10_state.md R29) -/

theorem unitInv_reset : UnitInv UnitState.reset where
  adjRange r c := by simp [UnitState.reset]
  invRange r c := by simp [UnitState.reset]
  msgLenBound := Nat.zero_le _
  outLenBound := Nat.zero_le _
  outLetters a ha := absurd ha (Nat.not_lt_zero a)
  outBytes _ := .inl rfl
  msgWf := rfl
  outWf := rfl
  msgWithin := rfl
  outWithin := rfl

/-- Every byte of a written text is a letter. -/
theorem isLetterCode_textUnit {u : UnitState} (h : Memory.wf u.out = true) {T : List Int}
    (hT : ∀ v ∈ T, 0 ≤ v ∧ v ≤ 25) (hl : T.length ≤ Config.outCap) {a : Nat} (ha : a < T.length) :
    IsLetterCode (Memory.read (textUnit u T).out a) := by
  have hread := (textUnit_spec h hT hl).2.1 a ha
  have hv : 0 ≤ T.getD a 0 ∧ T.getD a 0 ≤ 25 := by
    rw [List.getD_eq_getElem _ _ ha]
    exact hT _ (List.getElem_mem ha)
  unfold IsLetterCode
  omega

/-- A text within the capacity keeps the invariant (R28). -/
theorem UnitInv.textUnit {u : UnitState} (h : UnitInv u) {T : List Int}
    (hT : ∀ v ∈ T, 0 ≤ v ∧ v ≤ 25) (hl : T.length ≤ Config.outCap) : UnitInv (textUnit u T) := by
  obtain ⟨hlen, -, habove⟩ := textUnit_spec h.outWf hT hl
  refine { h with
    outLenBound := hlen ▸ hl
    outLetters := fun a ha => isLetterCode_textUnit h.outWf hT hl (hlen ▸ ha)
    outBytes := fun a => ?_
    outWf := wf_writeAll h.outWf _ _
    outWithin := within_writeAll h.outWithin _ (by simpa using hl) }
  rcases Nat.lt_or_ge a T.length with ha | ha
  · exact .inr (isLetterCode_textUnit h.outWf hT hl ha)
  · rw [habove a ha]
    exact h.outBytes a

/-- Whatever a command may write keeps the invariant. -/
theorem UnitInv.wrote {i : Instr} {u u' : UnitState} (h : UnitInv u) (w : Wrote i u u') :
    UnitInv u' := by
  cases w with
  | nothing => exact h
  | kdim _ _ => exact { h with }
  | k _ _ => exact { h with }
  | a _ _ => exact { h with }
  | modulus _ _ => exact { h with }
  | msg a v _ ha => exact { h with msgWf := wf_write h.msgWf a v, msgWithin := within_write h.msgWithin ha v }
  | msgLen _ _ hv => exact { h with msgLenBound := hv }
  | adj _ _ hM => exact { h with adjRange := hM }
  | inv _ _ hM => exact { h with invRange := hM }
  | text _ _ hT hl => exact h.textUnit hT hl

/-- Under the invariant every command completes, with one response, and keeps the invariant. -/
theorem exec_unitInv (i : Instr) {s : State} (h : UnitInv s.unit) :
    ∃ u code data, exec i s = .next (reply s u code data) ∧ UnitInv u := by
  cases exec_answers i s with
  | error c _ _ _ he => exact ⟨s.unit, c, 0, he, h⟩
  | ok u d he w => exact ⟨u, 0, d, he, h.wrote w⟩
  | stop _ _ _ hl => exact absurd h.msgLenBound (Nat.not_le.2 hl)

/-! ## One event and the run (00_scope.md R10, 70_reset_and_hazards.md R250, R255) -/

@[simp] theorem commandCount_nil : commandCount [] = 0 := rfl

@[simp] theorem commandCount_reset (es : List HostEvent) :
    commandCount (.reset :: es) = commandCount es := rfl

@[simp] theorem commandCount_command (w : Word) (es : List HostEvent) :
    commandCount (.command w :: es) = commandCount es + 1 := by simp [commandCount]

theorem step_idle {s : State} (h : s.inputs = []) : step s = .next s := by
  simp [step, takeInput_nil s h]

theorem step_reset {s : State} {rest : List HostEvent} (h : s.inputs = .reset :: rest) :
    step s = .next (hostReset { s with inputs := rest }) := by
  simp [step, takeInput_cons s _ _ h]

theorem step_command {s : State} {w : Word} {rest : List HostEvent}
    (h : s.inputs = .command w :: rest) : step s = runWord w { s with inputs := rest } := by
  simp [step, takeInput_cons s _ _ h]

theorem runWord_of_decode {w : Word} {i : Instr} (h : decode w = .ok i) (s : State) :
    runWord w s = exec i s := by simp [runWord, h]

/-- Under the invariant every command word, legal or not, is answered once and keeps the invariant. -/
theorem runWord_unitInv (w : Word) {s : State} (h : UnitInv s.unit) :
    ∃ u code data, runWord w s = .next (reply s u code data) ∧ UnitInv u := by
  cases hd : decode w with
  | ok i => exact runWord_of_decode hd s ▸ exec_unitInv i h
  | error e => exact ⟨s.unit, 7, 0, by simp [runWord, hd]; rfl, h⟩

/-- Under the invariant a step takes the next event, keeps the invariant, and adds one response for a
command and none for a reset. -/
theorem step_event {s : State} (h : UnitInv s.unit) {e : HostEvent} {rest : List HostEvent}
    (he : s.inputs = e :: rest) :
    ∃ t rs, step s = .next t ∧ t.inputs = rest ∧ UnitInv t.unit ∧
      t.responses = s.responses ++ rs ∧ rs.length = commandCount [e] := by
  cases e with
  | reset => exact ⟨_, [], step_reset he, rfl, unitInv_reset, (List.append_nil _).symm, rfl⟩
  | command w =>
    obtain ⟨u, code, data, hr, hu⟩ := runWord_unitInv w (s := { s with inputs := rest }) h
    exact ⟨_, [⟨code, data⟩], (step_command he).trans hr, rfl, hu, rfl, rfl⟩

theorem commandCount_cons (e : HostEvent) (es : List HostEvent) :
    commandCount (e :: es) = commandCount [e] + commandCount es := by
  cases e <;> simp [Nat.add_comm]

/-- A run whose first step goes on to `t` is the rest of the run from `t`. -/
theorem run_succ {s t : State} (h : step s = .next t) (k : Nat) :
    Host.Core.run Sys2Proof.core (k + 1) s = Host.Core.run Sys2Proof.core k t := by
  have h' : Sys2Proof.core.step s = .next t := h
  simp only [Host.Core.run, h']

/-- Settles O8: the next event is taken and its word decoded. -/
theorem stepRunsTheDecodedCommand : Obligations.StepRunsTheDecodedCommand :=
  fun _ _ _ _ hs hd => (step_command hs).trans (runWord_of_decode hd _)

/-- Settles O10: with no event to take, `step` answers the state it was given. -/
theorem idleStepHoldsTheState : Obligations.IdleStepHoldsTheState := fun _ => step_idle

/-- Settles O17, by induction on the waiting events: `step_event` takes the first, and the invariant it
keeps is what the rest of the run starts from. -/
theorem runAnswersEveryCommandOnce : Obligations.RunAnswersEveryCommandOnce := by
  intro s h
  induction hes : s.inputs generalizing s with
  | nil => exact ⟨s, [], rfl, hes, h, (List.append_nil _).symm, rfl⟩
  | cons e rest ih =>
    obtain ⟨s₁, rs₁, hstep, hin, hinv, hresp, hlen⟩ := step_event h hes
    obtain ⟨t, rs, hrun, hnil, htinv, htresp, htlen⟩ := ih s₁ hinv hin
    refine ⟨t, rs₁ ++ rs, (run_succ hstep _).trans hrun, hnil, htinv, ?_, ?_⟩
    · rw [htresp, hresp, List.append_assoc]
    · rw [List.length_append, hlen, htlen, ← commandCount_cons]

/-! ## What a compute command depends on (00_scope.md R11)

Two machines run the same command. `AnswersAlike` relates their two results: the same response, and
equal contents of the register or buffer the command writes. Each shared operation keeps the relation,
so a command has it as soon as its operands are the same in both machines. -/

/-- The unit states agree in what the compute command `i` writes (10_state.md R25, R26, R28). -/
structure SameResult (i : Instr) (u u' : UnitState) : Prop where
  adj : i = .adj → u'.adj = u.adj
  inv : i = .kinv → u'.inv = u.inv
  out : i = .enc ∨ i = .dec → u'.outLen = u.outLen ∧
    ∀ a, a < u.outLen.toNat → Memory.read u'.out a = Memory.read u.out a

/-- The results `r` from `s` and `r'` from `s'` of one command `i` are alike. -/
inductive AnswersAlike (i : Instr) (s s' : State) : Result → Result → Prop
  | error (c : BitVec 8) (h : c ≠ 0) :
      AnswersAlike i s s' (.next (replyError s c)) (.next (replyError s' c))
  | ok (u u' : UnitState) (d : Word) (w : SameResult i u u') :
      AnswersAlike i s s' (.next (reply s u 0 d)) (.next (reply s' u' 0 d))
  | stop : AnswersAlike i s s' (.fault .outsideBuffer) (.fault .outsideBuffer)

theorem ErrorKind.code_ne_zero (e : ErrorKind) : e.code ≠ 0 := by cases e <;> decide

section
variable {i : Instr} {s s' : State} {α : Type}

/-- What alike results say when the first one is a response. -/
theorem AnswersAlike.exists_reply {r r' : Result} (h : AnswersAlike i s s' r r')
    {u : UnitState} {code : BitVec 8} {data : Word} (hr : r = .next (reply s u code data)) :
    ∃ u', r' = .next (reply s' u' code data) ∧ (code = 0 → SameResult i u u') := by
  cases h with
  | error c hc =>
    obtain ⟨-, rfl, rfl⟩ := reply_inj (Host.Outcome.next.inj hr)
    exact ⟨s'.unit, rfl, fun h0 => absurd h0 hc⟩
  | ok v v' d w =>
    obtain ⟨rfl, rfl, rfl⟩ := reply_inj (Host.Outcome.next.inj hr)
    exact ⟨v', rfl, fun _ => w⟩
  | stop => cases hr

theorem alike_raise (e : ErrorKind) : AnswersAlike i s s' (raise e s) (raise e s') :=
  .error _ e.code_ne_zero

theorem alike_orRaise (r : Except ErrorKind α) {f f' : α → Result}
    (hf : ∀ a, AnswersAlike i s s' (f a) (f' a)) :
    AnswersAlike i s s' (orRaise r s f) (orRaise r s' f') := by
  cases r with
  | ok a => exact hf a
  | error e => exact alike_raise e

theorem alike_orElseRaise (r : Option α) (e : ErrorKind) {f f' : α → Result}
    (hf : ∀ a, AnswersAlike i s s' (f a) (f' a)) :
    AnswersAlike i s s' (orElseRaise r e s f) (orElseRaise r e s' f') := by
  cases r with
  | some a => exact hf a
  | none => exact alike_raise e

theorem alike_orOutside (r : Option α) {f f' : α → Result}
    (hf : ∀ a, AnswersAlike i s s' (f a) (f' a)) :
    AnswersAlike i s s' (orOutside r f) (orOutside r f') := by
  cases r with
  | some a => exact hf a
  | none => exact .stop

/-- A command that writes nothing answers the same value. -/
theorem alike_respond (d : Word) (hi : i ∈ [.valk, .det, .chkinv, .gcd, .modinv]) :
    AnswersAlike i s s' (respond d s) (respond d s') := by
  refine .ok _ _ d ⟨?_, ?_, ?_⟩
  · rintro rfl; simp at hi
  · rintro rfl; simp at hi
  · rintro (rfl | rfl) <;> simp at hi

/-- A result text reads the same whatever `OUT` held before it. -/
theorem sameResult_textUnit {u u' : UnitState} (h : Memory.wf u.out = true)
    (h' : Memory.wf u'.out = true) (hi : i = .enc ∨ i = .dec) (T : List Int) :
    SameResult i (textUnit u T) (textUnit u' T) where
  adj he := by subst he; simp at hi
  inv he := by subst he; simp at hi
  out _ := by
    refine ⟨rfl, fun a ha => ?_⟩
    have hlt : a < T.length := ha.trans_le (Nat.mod_le ..)
    simp [textUnit, read_writeAll h, read_writeAll h', hlt]

theorem alike_emitText (h : Memory.wf s.unit.out = true) (h' : Memory.wf s'.unit.out = true)
    (hi : i = .enc ∨ i = .dec) (T : List Int) :
    AnswersAlike i s s' (emitText T s) (emitText T s') := by
  by_cases hl : T.length ≤ Config.outCap
  · rw [emitText_eq T s hl, emitText_eq T s' hl]
    exact .ok _ _ _ (sameResult_textUnit h h' hi T)
  · simp only [emitText, writeResult, List.length_map, if_neg hl]
    exact .stop

end

/-! ### The operands, read alike -/

theorem keycheck_congr {u u' : UnitState} (hd : u.kdim = u'.kdim) (hk : u.k = u'.k) :
    keycheck u = keycheck u' := by simp only [keycheck, hd, hk]

theorem keyMatrix_congr {u u' : UnitState} (hk : u.k = u'.k) : keyMatrix u = keyMatrix u' := by
  simp only [keyMatrix, hk]

/-- The length is that of the byte list, so the bytes alone decide. -/
theorem message_congr {u u' : UnitState} (h : messageBytes u = messageBytes u') :
    message u = message u' := by
  have hlen : u.msgLen.toNat = u'.msgLen.toNat := by
    rw [← length_messageBytes u, h, length_messageBytes]
  rcases Nat.lt_or_ge Config.msgCap u.msgLen.toNat with hl | hl
  · rw [message_none hl, message_none (hlen ▸ hl)]
  · rw [message_eq hl, message_eq (hlen ▸ hl), h]

/-! ### The commands -/

section
variable {s s' : State}

theorem keyCommand_alike {i : Instr} (hi : i ∈ [.valk, .det, .chkinv, .adj, .kinv])
    (hd : s.unit.kdim = s'.unit.kdim) (hk : s.unit.k = s'.unit.k) :
    AnswersAlike i s s' (exec i s) (exec i s') := by
  have hc := keycheck_congr hd hk
  have hM := keyMatrix_congr hk
  simp only [List.mem_cons, List.not_mem_nil, or_false] at hi
  rcases hi with rfl | rfl | rfl | rfl | rfl
  · simp only [exec, execValk, hc]
    exact alike_orRaise _ fun n => alike_respond _ (by simp)
  · simp only [exec, execDet, hc, hM]
    exact alike_orRaise _ fun n => alike_respond _ (by simp)
  · simp only [exec, execChkinv, hc, hM]
    refine alike_orRaise _ fun n => ?_
    split
    · exact alike_respond _ (by simp)
    · exact alike_raise _
  · simp only [exec, execAdj, hc, hM]
    exact alike_orRaise _ fun n => .ok _ _ _ ⟨fun _ => rfl, nofun, nofun⟩
  · simp only [exec, execKinv, hc, hM]
    exact alike_orRaise _ fun n => alike_orRaise _ fun V => .ok _ _ _ ⟨nofun, fun _ => rfl, nofun⟩

theorem scalarCommand_alike {i : Instr} (hi : i ∈ [.gcd, .modinv])
    (ha : s.unit.a = s'.unit.a) (hm : s.unit.modulus = s'.unit.modulus) :
    AnswersAlike i s s' (exec i s) (exec i s') := by
  simp only [List.mem_cons, List.not_mem_nil, or_false] at hi
  rcases hi with rfl | rfl
  · simp only [exec, execGcd, signedA, modulusNat, ha, hm]
    exact alike_respond _ (by simp)
  · simp only [exec, execModinv, signedA, modulusNat, ha, hm]
    exact alike_orElseRaise _ _ fun x => alike_respond _ (by simp)

theorem cipherCommand_alike {i : Instr} (hi : i ∈ [.enc, .dec])
    (h : Memory.wf s.unit.out = true) (h' : Memory.wf s'.unit.out = true)
    (hd : s.unit.kdim = s'.unit.kdim) (hk : s.unit.k = s'.unit.k)
    (hb : messageBytes s.unit = messageBytes s'.unit) :
    AnswersAlike i s s' (exec i s) (exec i s') := by
  have hc := keycheck_congr hd hk
  have hM := keyMatrix_congr hk
  have hmsg := message_congr hb
  simp only [List.mem_cons, List.not_mem_nil, or_false] at hi
  rcases hi with rfl | rfl
  · simp only [exec, execEnc, hc, hM, hmsg]
    exact alike_orRaise _ fun n => alike_orOutside _ fun bytes => alike_orRaise _ fun S =>
      alike_emitText h h' (.inl rfl) _
  · simp only [exec, execDec, hc, hM, hmsg]
    refine alike_orRaise _ fun n => alike_orOutside _ fun bytes => alike_orRaise _ fun S => ?_
    split
    · exact alike_raise _
    · exact alike_orRaise _ fun V => alike_emitText h h' (.inr rfl) _

end

/-- Settles O20: the operands agree, so the two results are alike. -/
theorem computeResultDependsOnItsOperands : Obligations.ComputeResultDependsOnItsOperands := by
  intro i s s' u code data h h' hop hr
  have halike : AnswersAlike i s s' (exec i s) (exec i s') := by
    rcases hop with ⟨hi, hd, hk⟩ | ⟨hi, ha, hm⟩ | ⟨hi, hd, hk, hb⟩
    · exact keyCommand_alike hi hd hk
    · exact scalarCommand_alike hi ha hm
    · exact cipherCommand_alike hi h.outWf h'.outWf hd hk hb
  obtain ⟨u', hr', hsame⟩ := halike.exists_reply hr
  exact ⟨u', hr', fun h0 => (hsame h0).adj, fun h0 => (hsame h0).inv, fun h0 => (hsame h0).out⟩

end Sys2Proof.Machine
end

section
/-! PROOFS, family 10_state.md: the range invariant (O12, O13), who writes each item of state (O18) and
the values after reset (O11). `exec_next_wrote` says of every completing command what it may have made
of the unit; `exec_of_keyError` says what the seven key-consuming commands do with a key that fails the
checks of 41_determinant.md R130. -/

namespace Sys2Proof.Machine

/-! ## The range invariant (10_state.md R29) -/

/-- Settles O13: an idle step changes nothing; any other takes one event, and neither a reset nor a
command breaks the invariant (`step_event`). -/
theorem stepKeepsTheRangeInvariant : Obligations.StepKeepsTheRangeInvariant := by
  intro s t h hstep
  cases hin : s.inputs with
  | nil =>
    cases (step_idle hin).symm.trans hstep
    exact h
  | cons e rest =>
    obtain ⟨t', -, hstep', -, hinv, -, -⟩ := step_event h hin
    cases hstep'.symm.trans hstep
    exact hinv

/-- Settles O12. -/
theorem rangeInvariantHoldsAtReset : Obligations.RangeInvariantHoldsAtReset := unitInv_reset

/-! ## Who writes each item (10_state.md R21 to R28, R33) -/

/-- A command that completes made of the unit one of the states `Wrote` lists; one that ends with an
error wrote nothing. -/
theorem exec_next_wrote {i : Instr} {s t : State} (h : exec i s = .next t) :
    Wrote i s.unit t.unit := by
  cases exec_answers i s with
  | error c _ _ _ he =>
    cases he.symm.trans h
    exact .nothing
  | ok u d he w =>
    cases he.symm.trans h
    exact w
  | stop he _ _ _ => cases he.symm.trans h

/-- Settles O18: each form of `Wrote` changes one item, the two of the result together for a text, and
names the commands it belongs to. -/
theorem onlyTheNamedCommandsWrite : Obligations.OnlyTheNamedCommandsWrite := by
  intro i s t h
  have w := exec_next_wrote h
  generalize t.unit = u at w ⊢
  cases w with
  | nothing => simp
  | kdim _ m => simp [m]
  | k _ m => simp [m]
  | a _ m => simp [m]
  | modulus _ m => simp [m]
  | msg _ _ m _ => simp [m]
  | msgLen _ m _ => simp [m]
  | adj _ m _ => simp [m]
  | inv _ m _ => simp [m]
  | text _ m _ _ => simp [textUnit, m]

/-! ## The unit after reset (10_state.md R31) -/

/-- A key-consuming command answers a key's error before it reads or writes anything (R130, R222). -/
theorem exec_of_keyError {i : Instr} (hi : i ∈ [.valk, .det, .chkinv, .adj, .kinv, .enc, .dec])
    {s : State} {code : BitVec 8} (h : KeyError s.unit code) :
    exec i s = .next (replyError s code) := by
  obtain ⟨e, hk, rfl⟩ := keycheck_of_keyError h
  have hexec : ∃ f, exec i s = orRaise (keycheck s.unit) s f := by
    simp only [List.mem_cons, List.not_mem_nil, or_false] at hi
    rcases hi with rfl | rfl | rfl | rfl | rfl | rfl | rfl <;> exact ⟨_, rfl⟩
  obtain ⟨f, hf⟩ := hexec
  rw [hf, hk, orRaise_error]

/-- The key after reset is square of order 0. -/
theorem keyError_reset : KeyError UnitState.reset 2 := .inr (.inl ⟨rfl, by decide, by decide, rfl⟩)

/-- Zero has no inverse, whatever the modulus. -/
theorem modinv_zero (m : Nat) : modinv 0 m = none := by
  cases h : modinv 0 m with
  | none => rfl
  | some x =>
    obtain ⟨-, -, hx⟩ := modinv_some h
    simp at hx

theorem exec_gcd_of_a_eq_zero {s : State} (h : s.unit.a = 0) :
    exec .gcd s = .next (reply s s.unit 0 s.unit.modulus) := by
  simp [exec, execGcd, gcdOf, signedA, h, zextNat, modulusNat, respond_eq]

theorem exec_modinv_of_a_eq_zero {s : State} (h : s.unit.a = 0) :
    exec .modinv s = .next (replyError s 4) := by
  simp [exec, execModinv, signedA, h, modinv_zero, ErrorKind.code]

/-- Settles O11: the table's values stand in `UnitState.reset`; the answers follow from the key's order 0
and from `A = 0`. -/
theorem resetValuesAreTheTables : Obligations.ResetValuesAreTheTables :=
  ⟨rfl, rfl, matGet_zeroMatrix, rfl, rfl, matGet_zeroMatrix, matGet_zeroMatrix,
    fun _ => rfl, rfl, fun _ => rfl, rfl,
    fun _ hi => exec_of_keyError hi keyError_reset,
    exec_gcd_of_a_eq_zero rfl, exec_modinv_of_a_eq_zero rfl⟩

end Sys2Proof.Machine
end

section
/-! PROOFS, family 20_memory.md: the model's one stop (O15), and a command issued again at once (O19). -/

namespace Sys2Proof.Machine

/-! ## The one stop (R57, R62, log entry 6) -/

/-- With a valid key and a message beyond the buffer, ENC and DEC stop at reading the message. -/
theorem exec_of_oversize {i : Instr} {s : State} (hi : i = .enc ∨ i = .dec)
    (hv : ∃ n, ValidKey n s.unit) (hl : Config.msgCap < s.unit.msgLen.toNat) :
    exec i s = .fault .outsideBuffer := by
  obtain ⟨n, hn⟩ := hv
  obtain ⟨m, -, hk⟩ := keycheck_of_validKey hn
  rcases hi with rfl | rfl
  · simp only [exec, execEnc, hk, message_none hl, orRaise_ok, orOutside_none]
  · simp only [exec, execDec, hk, message_none hl, orRaise_ok, orOutside_none]

/-- Settles O15: `exec_answers` has one form that is no next state, and its hypotheses are the ones
`exec_of_oversize` needs. -/
theorem onlyOversizeMessageStops : Obligations.OnlyOversizeMessageStops := by
  intro i s
  refine ⟨fun r hr => ?_, fun ⟨f, hf⟩ => ?_, fun ⟨hi, hv, hl⟩ => ⟨_, exec_of_oversize hi hv hl⟩⟩
  · cases exec_answers i s with
    | error c _ _ _ h => cases h.symm.trans hr
    | ok u d h _ => cases h.symm.trans hr
    | stop h _ _ _ => cases h.symm.trans hr
  · cases exec_answers i s with
    | error c _ _ _ h => cases h.symm.trans hf
    | ok u d h _ => cases h.symm.trans hf
    | stop _ hi hv hl => exact ⟨hi, hv, hl⟩

/-! ## The same command again (R56, R227, 44_cipher.md R198 (d))

A command never reads an item that it writes itself. So in the state it left it finds the operands it
had before, gives the same response, and makes the same write; and every write, made twice, is the
write made once. `SameWrite` says this of two results (`AnswersAlike` compares what a compute command
wrote below `OUTLEN`; here the whole unit state has to be the same). -/

/-- The results from `s` and `s'` are the same response with the same write `g`, which on the unit of
`s` changes nothing when made again; or both are the stop. -/
inductive SameWrite (s s' : State) : Result → Result → Prop
  | write (g : UnitState → UnitState) (c : BitVec 8) (d : Word) (hg : g (g s.unit) = g s.unit) :
      SameWrite s s' (.next (reply s (g s.unit) c d)) (.next (reply s' (g s'.unit) c d))
  | stop : SameWrite s s' (.fault .outsideBuffer) (.fault .outsideBuffer)

/-! ### Writes made twice -/

theorem matSet_matSet_same {α : Type} (M : Mat3 α) (r c : Fin 3) (v : α) :
    matSet (matSet M r c v) r c v = matSet M r c v :=
  mat_ext fun i j => by rw [matGet_matSet]; split <;> simp [matGet_matSet, *]

theorem setK_setK_same (u : UnitState) (r c : Fin 3) (v : Byte) :
    (u.setK r c v).setK r c v = u.setK r c v := by
  simp only [UnitState.setK, matSet_matSet_same]

theorem textUnit_textUnit_same {u : UnitState} (h : Memory.wf u.out = true) (T : List Int) :
    textUnit (textUnit u T) T = textUnit u T := by
  simp only [textUnit, writeAll_writeAll_same h]

/-! ### The shared operations keep the relation -/

section
variable {s s' : State} {α : Type}

/-- In a state that the first result left, the second result is that state again. -/
theorem SameWrite.reply_again {r r' : Result} (h : SameWrite s s' r r') {u : UnitState}
    {code : BitVec 8} {data : Word} (hr : r = .next (reply s u code data))
    (hs' : s'.unit = u) : r' = .next (reply s' u code data) := by
  cases h with
  | write g c d hg =>
    obtain ⟨rfl, rfl, rfl⟩ := reply_inj (Host.Outcome.next.inj hr)
    rw [hs', hg]
  | stop => cases hr

theorem sameWrite_respond (d : Word) : SameWrite s s' (respond d s) (respond d s') :=
  .write id 0 d rfl

theorem sameWrite_raise (e : ErrorKind) : SameWrite s s' (raise e s) (raise e s') :=
  .write id e.code 0 rfl

theorem sameWrite_orRaise (r : Except ErrorKind α) {f f' : α → Result}
    (hf : ∀ a, SameWrite s s' (f a) (f' a)) :
    SameWrite s s' (orRaise r s f) (orRaise r s' f') := by
  cases r with
  | ok a => exact hf a
  | error e => exact sameWrite_raise e

theorem sameWrite_orElseRaise (r : Option α) (e : ErrorKind) {f f' : α → Result}
    (hf : ∀ a, SameWrite s s' (f a) (f' a)) :
    SameWrite s s' (orElseRaise r e s f) (orElseRaise r e s' f') := by
  cases r with
  | some a => exact hf a
  | none => exact sameWrite_raise e

theorem sameWrite_orOutside (r : Option α) {f f' : α → Result}
    (hf : ∀ a, SameWrite s s' (f a) (f' a)) :
    SameWrite s s' (orOutside r f) (orOutside r f') := by
  cases r with
  | some a => exact hf a
  | none => exact .stop

theorem sameWrite_atEntry (r c : BitVec 2) {f f' : Fin 3 → Fin 3 → Result}
    (hf : ∀ i j, SameWrite s s' (f i j) (f' i j)) :
    SameWrite s s' (atEntry r c s f) (atEntry r c s' f') :=
  sameWrite_orElseRaise _ _ fun i => sameWrite_orElseRaise _ _ fun j => hf i j

theorem sameWrite_emitText (h : Memory.wf s.unit.out = true) (T : List Int) :
    SameWrite s s' (emitText T s) (emitText T s') := by
  by_cases hl : T.length ≤ Config.outCap
  · rw [emitText_eq T s hl, emitText_eq T s' hl]
    exact .write (textUnit · T) _ _ (textUnit_textUnit_same h T)
  · simp only [emitText, writeResult, List.length_map, if_neg hl]
    exact .stop

end

/-! ### What a command may have written is no operand of it -/

/-- The commands of `Wrote` that may change the unit's state. -/
def writerMnemonics : List String :=
  ["SETDIM", "LDK", "LDA", "LDM", "LDB", "SETLEN", "ADJ", "KINV", "ENC", "DEC"]

theorem Wrote.unit_eq {i : Instr} {u u' : UnitState} (w : Wrote i u u')
    (hi : i.mnemonic ∉ writerMnemonics) : u' = u := by
  cases w with
  | nothing => rfl
  | kdim _ m => simp [m, writerMnemonics] at hi
  | k _ m => simp [m, writerMnemonics] at hi
  | a _ m => simp [m, writerMnemonics] at hi
  | modulus _ m => simp [m, writerMnemonics] at hi
  | msg _ _ m _ => simp [m, writerMnemonics] at hi
  | msgLen _ m _ => simp [m, writerMnemonics] at hi
  | adj _ m _ => simp [m, writerMnemonics] at hi
  | inv _ m _ => simp [m, writerMnemonics] at hi
  | text _ m _ _ => rcases m with m | m <;> simp [m, writerMnemonics] at hi

theorem Wrote.compute_operands {i : Instr} {u u' : UnitState} (w : Wrote i u u')
    (hi : i.mnemonic ∈ ["ADJ", "KINV", "ENC", "DEC"]) :
    keycheck u' = keycheck u ∧ keyMatrix u' = keyMatrix u ∧ message u' = message u := by
  cases w with
  | nothing => exact ⟨rfl, rfl, rfl⟩
  | adj _ _ _ => exact ⟨rfl, rfl, rfl⟩
  | inv _ _ _ => exact ⟨rfl, rfl, rfl⟩
  | text _ _ _ _ => exact ⟨rfl, rfl, rfl⟩
  | kdim _ m => simp [m] at hi
  | k _ m => simp [m] at hi
  | a _ _ => exact ⟨rfl, rfl, rfl⟩
  | modulus _ _ => exact ⟨rfl, rfl, rfl⟩
  | msg _ _ m _ => simp [m] at hi
  | msgLen _ m _ => simp [m] at hi

/-! ### The commands -/

section
variable {s s' : State}

/-- A command that writes nothing finds the same unit. -/
theorem readCommand_sameWrite {i : Instr} (hi : i.mnemonic ∉ writerMnemonics)
    (hw : Wrote i s.unit s'.unit) :
    SameWrite s s' (exec i s) (exec i s') := by
  obtain ⟨u, es, rs⟩ := s'
  obtain rfl : u = s.unit := hw.unit_eq hi
  cases i with
  | nop => exact sameWrite_respond _
  | rddim => exact sameWrite_respond _
  | rdk r c => exact sameWrite_atEntry r c fun i j => sameWrite_respond _
  | rda => exact sameWrite_respond _
  | rdm => exact sameWrite_respond _
  | rdadj r c => exact sameWrite_atEntry r c fun i j => sameWrite_respond _
  | rdinv r c => exact sameWrite_atEntry r c fun i j => sameWrite_respond _
  | rdlen => exact sameWrite_respond _
  | rdolen => exact sameWrite_respond _
  | rdb a => exact sameWrite_orElseRaise _ _ fun b => sameWrite_respond _
  | rdo a => exact sameWrite_orElseRaise _ _ fun b => sameWrite_respond _
  | valk => exact sameWrite_orRaise _ fun n => sameWrite_respond _
  | det => exact sameWrite_orRaise _ fun n => sameWrite_respond _
  | chkinv =>
    refine sameWrite_orRaise _ fun n => ?_
    split
    · exact sameWrite_respond _
    · exact sameWrite_raise _
  | gcd => exact sameWrite_respond _
  | modinv => exact sameWrite_orElseRaise _ _ fun x => sameWrite_respond _
  | _ => simp [Instr.mnemonic, writerMnemonics] at hi

theorem ldb_sameWrite (h : Memory.wf s.unit.msg = true) (addr : BitVec 16) (v : Byte) :
    SameWrite s s' (exec (.ldb addr v) s) (exec (.ldb addr v) s') := by
  by_cases ha : addr.toNat < Config.msgCap
  · simp only [exec, execLdb, writeMsg, if_pos ha, orElseRaise_some]
    refine .write (fun u => { u with msg := Memory.write u.msg addr.toNat v }) 0 0 ?_
    simp only [write_write_same h]
  · simp only [exec, execLdb, writeMsg, if_neg ha]
    exact sameWrite_raise _

theorem setlen_sameWrite (v : BitVec 16) :
    SameWrite s s' (exec (.setlen v) s) (exec (.setlen v) s') := by
  simp only [exec, execSetlen]
  split
  · exact sameWrite_raise _
  · exact .write (·.setMsgLen v) 0 0 rfl

theorem computeWrite_sameWrite {i : Instr} (hi : i ∈ [.adj, .kinv, .enc, .dec])
    (h : Memory.wf s.unit.out = true) (hw : Wrote i s.unit s'.unit) :
    SameWrite s s' (exec i s) (exec i s') := by
  obtain ⟨hk, hM, hm⟩ := hw.compute_operands (List.mem_map_of_mem (f := Instr.mnemonic) hi)
  simp only [List.mem_cons, List.not_mem_nil, or_false] at hi
  rcases hi with rfl | rfl | rfl | rfl
  · simp only [exec, execAdj, hk, hM]
    exact sameWrite_orRaise _ fun n => .write (·.setAdj _) 0 0 rfl
  · simp only [exec, execKinv, hk, hM]
    exact sameWrite_orRaise _ fun n => sameWrite_orRaise _ fun V => .write (·.setInv _) 0 0 rfl
  · simp only [exec, execEnc, hk, hM, hm]
    exact sameWrite_orRaise _ fun n => sameWrite_orOutside _ fun bytes =>
      sameWrite_orRaise _ fun S => sameWrite_emitText h _
  · simp only [exec, execDec, hk, hM, hm]
    refine sameWrite_orRaise _ fun n => sameWrite_orOutside _ fun bytes =>
      sameWrite_orRaise _ fun S => ?_
    split
    · exact sameWrite_raise _
    · exact sameWrite_orRaise _ fun V => sameWrite_emitText h _

/-- A command run in a state it may itself have left does what it did. -/
theorem exec_sameWrite (i : Instr) (h : UnitInv s.unit) (hw : Wrote i s.unit s'.unit) :
    SameWrite s s' (exec i s) (exec i s') := by
  cases i with
  | setdim rows cols => exact .write (·.setKdim rows cols) 0 0 rfl
  | ldk r c v =>
    exact sameWrite_atEntry r c fun i j => .write (·.setK i j v) 0 0 (setK_setK_same _ i j v)
  | lda v => exact .write (·.setA (sext24 v)) 0 0 rfl
  | ldm v => exact .write (·.setModulus (zext16 v)) 0 0 rfl
  | ldb addr v => exact ldb_sameWrite h.msgWf addr v
  | setlen v => exact setlen_sameWrite v
  | adj => exact computeWrite_sameWrite (by simp) h.outWf hw
  | kinv => exact computeWrite_sameWrite (by simp) h.outWf hw
  | enc => exact computeWrite_sameWrite (by simp) h.outWf hw
  | dec => exact computeWrite_sameWrite (by simp) h.outWf hw
  | _ => exact readCommand_sameWrite (by simp [Instr.mnemonic, writerMnemonics]) hw

end

/-- Settles O19: the command finds the unit as it may have written it, so it makes the same write and
gives the same response. -/
theorem repeatedCommandGivesTheSameAgain : Obligations.RepeatedCommandGivesTheSameAgain := by
  intro i s u code data h hexec
  exact (exec_sameWrite i h (exec_next_wrote hexec)).reply_again hexec rfl

end Sys2Proof.Machine
end

section
/-! PROOFS, family 30_encoding.md: decoding and encoding are inverse to each other (O1, O2), the decoder
and the printed opcode map (O4), the words answered `IllegalCommand` (O5, O6), and the assembler (O7).
`decode_eq_ok_iff` says of every word which command it decodes to, `exists_decode_iff_clean` of every
word with an opcode of the map whether it decodes at all. -/

namespace Sys2Proof

/-! ## Encoding, then decoding (30_encoding.md R70 to R77) -/

/-- The opcode selects the command's format, and that format's decoder reads back what its encoder
wrote; the formats E and ER check the indices. -/
theorem decode_encode {i : Instr} (h : WellFormed i = true) : decode (encode i) = .ok i := by
  cases i with
  | ldk r c v =>
    obtain ⟨hr, hc⟩ := Bool.and_eq_true_iff.1 h
    simp [decode, encode, decodeE_encodeE, hr, hc]
  | rdk r c | rdadj r c | rdinv r c =>
    obtain ⟨hr, hc⟩ := Bool.and_eq_true_iff.1 h
    simp [decode, encode, decodeER_encodeER, hr, hc]
  | _ =>
    simp [decode, encode, decodeN_encodeN, decodeD_encodeD, decodeI24_encodeI24,
      decodeI16_encodeI16, decodeB_encodeB, decodeBR_encodeBR]

/-! ## Decoding, then encoding (R71 to R76, R79, R85)

Format by format: a word whose reserved bits are 0 is the encoding of its own fields; the format's
decoder accepts the words whose reserved bits are 0 and whose indices are legal; so what it gives is a
well-formed command whose encoding is the word. -/

section
variable {w : Word}

theorem field_eq_zero_iff {lo len : Nat} :
    w.extractLsb' lo len = 0 ↔ w.toNat / 2 ^ lo % 2 ^ len = 0 := by
  rw [← toNat_field, ← BitVec.toNat_inj]
  simp

theorem encodeN_fields (h : w.extractLsb' 0 24 = 0) : encodeN (opField w) = w := by
  rw [field_eq_zero_iff] at h
  apply BitVec.eq_of_toNat_eq
  simp only [encodeN_toNat, opField, toNat_field]
  omega

theorem encodeD_fields (h : w.extractLsb' 8 16 = 0) :
    encodeD (opField w) (rowsField w) (colsField w) = w := by
  rw [field_eq_zero_iff] at h
  apply BitVec.eq_of_toNat_eq
  simp only [encodeD_toNat, opField, rowsField, colsField, toNat_field]
  omega

theorem encodeE_fields (h : w.extractLsb' 12 12 = 0) :
    encodeE (opField w) (rField w) (cField w) (imm8Field w) = w := by
  rw [field_eq_zero_iff] at h
  apply BitVec.eq_of_toNat_eq
  simp only [encodeE_toNat, opField, rField, cField, imm8Field, toNat_field]
  omega

theorem encodeER_fields (h : w.extractLsb' 12 12 = 0) (hlow : w.extractLsb' 0 8 = 0) :
    encodeER (opField w) (rField w) (cField w) = w := by
  have hE := encodeE_fields h
  rwa [imm8Field, hlow] at hE

theorem encodeI24_fields : encodeI24 (opField w) (simm24Field w) = w := by
  apply BitVec.eq_of_toNat_eq
  simp only [encodeI24_toNat, opField, simm24Field, toNat_field]
  omega

theorem encodeI16_fields (h : w.extractLsb' 16 8 = 0) :
    encodeI16 (opField w) (uimm16Field w) = w := by
  rw [field_eq_zero_iff] at h
  apply BitVec.eq_of_toNat_eq
  simp only [encodeI16_toNat, opField, uimm16Field, toNat_field]
  omega

theorem encodeB_fields : encodeB (opField w) (addrField w) (imm8Field w) = w := by
  apply BitVec.eq_of_toNat_eq
  simp only [encodeB_toNat, opField, addrField, imm8Field, toNat_field]
  omega

theorem encodeBR_fields (hlow : w.extractLsb' 0 8 = 0) :
    encodeBR (opField w) (addrField w) = w := by
  have hB := encodeB_fields (w := w)
  rwa [imm8Field, hlow] at hB

end

section
variable {w : Word} {i : Instr}

theorem decodeN_eq_ok_iff {j : Instr} : decodeN j w = .ok i ↔ w.extractLsb' 0 24 = 0 ∧ j = i := by
  unfold decodeN
  split <;> simp_all

theorem decodeD_eq_ok_iff {mk : BitVec 4 → BitVec 4 → Instr} :
    decodeD mk w = .ok i ↔ w.extractLsb' 8 16 = 0 ∧ mk (rowsField w) (colsField w) = i := by
  unfold decodeD
  split <;> simp_all

theorem decodeE_eq_ok_iff {mk : BitVec 2 → BitVec 2 → BitVec 8 → Instr} :
    decodeE mk w = .ok i ↔ w.extractLsb' 12 12 = 0 ∧
      (indexLegal (rField w) && indexLegal (cField w)) = true ∧
      mk (rField w) (cField w) (imm8Field w) = i := by
  rw [decodeE, ← Bool.not_and]
  split
  · simp_all
  · cases indexLegal (rField w) && indexLegal (cField w) <;> simp_all

theorem decodeER_eq_ok_iff {mk : BitVec 2 → BitVec 2 → Instr} :
    decodeER mk w = .ok i ↔ (w.extractLsb' 12 12 = 0 ∧ w.extractLsb' 0 8 = 0) ∧
      (indexLegal (rField w) && indexLegal (cField w)) = true ∧ mk (rField w) (cField w) = i := by
  rw [decodeER, ← Bool.not_and]
  split
  · next h => rcases h with h | h <;> simp_all
  · cases indexLegal (rField w) && indexLegal (cField w) <;> simp_all

theorem decodeI16_eq_ok_iff {mk : BitVec 16 → Instr} :
    decodeI16 mk w = .ok i ↔ w.extractLsb' 16 8 = 0 ∧ mk (uimm16Field w) = i := by
  unfold decodeI16
  split <;> simp_all

theorem decodeBR_eq_ok_iff {mk : BitVec 16 → Instr} :
    decodeBR mk w = .ok i ↔ w.extractLsb' 0 8 = 0 ∧ mk (addrField w) = i := by
  unfold decodeBR
  split <;> simp_all

end

/-- The command is well-formed and the word spells it. -/
def Spells (w : Word) (i : Instr) : Prop := WellFormed i = true ∧ encode i = w

section
variable {w : Word} {i : Instr} {op : BitVec 8}

theorem spells_of_decodeN {j : Instr} (hj : WellFormed j = true ∧ encode j = encodeN op)
    (hop : opField w = op) (h : decodeN j w = .ok i) : Spells w i := by
  obtain ⟨h0, rfl⟩ := decodeN_eq_ok_iff.1 h
  exact ⟨hj.1, by rw [hj.2, ← hop, encodeN_fields h0]⟩

theorem spells_of_decodeD {mk : BitVec 4 → BitVec 4 → Instr}
    (hmk : ∀ rows cols, WellFormed (mk rows cols) = true ∧
      encode (mk rows cols) = encodeD op rows cols)
    (hop : opField w = op) (h : decodeD mk w = .ok i) : Spells w i := by
  obtain ⟨h0, rfl⟩ := decodeD_eq_ok_iff.1 h
  exact ⟨(hmk _ _).1, by rw [(hmk _ _).2, ← hop, encodeD_fields h0]⟩

theorem spells_of_decodeE {mk : BitVec 2 → BitVec 2 → BitVec 8 → Instr}
    (hmk : ∀ r c v, WellFormed (mk r c v) = (indexLegal r && indexLegal c) ∧
      encode (mk r c v) = encodeE op r c v)
    (hop : opField w = op) (h : decodeE mk w = .ok i) : Spells w i := by
  obtain ⟨h0, hidx, rfl⟩ := decodeE_eq_ok_iff.1 h
  exact ⟨(hmk _ _ _).1.trans hidx, by rw [(hmk _ _ _).2, ← hop, encodeE_fields h0]⟩

theorem spells_of_decodeER {mk : BitVec 2 → BitVec 2 → Instr}
    (hmk : ∀ r c, WellFormed (mk r c) = (indexLegal r && indexLegal c) ∧
      encode (mk r c) = encodeER op r c)
    (hop : opField w = op) (h : decodeER mk w = .ok i) : Spells w i := by
  obtain ⟨⟨h0, hlow⟩, hidx, rfl⟩ := decodeER_eq_ok_iff.1 h
  exact ⟨(hmk _ _).1.trans hidx, by rw [(hmk _ _).2, ← hop, encodeER_fields h0 hlow]⟩

theorem spells_of_decodeI24 {mk : BitVec 24 → Instr}
    (hmk : ∀ v, WellFormed (mk v) = true ∧ encode (mk v) = encodeI24 op v)
    (hop : opField w = op) (h : decodeI24 mk w = .ok i) : Spells w i := by
  cases h
  exact ⟨(hmk _).1, by rw [(hmk _).2, ← hop, encodeI24_fields]⟩

theorem spells_of_decodeI16 {mk : BitVec 16 → Instr}
    (hmk : ∀ v, WellFormed (mk v) = true ∧ encode (mk v) = encodeI16 op v)
    (hop : opField w = op) (h : decodeI16 mk w = .ok i) : Spells w i := by
  obtain ⟨h0, rfl⟩ := decodeI16_eq_ok_iff.1 h
  exact ⟨(hmk _).1, by rw [(hmk _).2, ← hop, encodeI16_fields h0]⟩

theorem spells_of_decodeB {mk : BitVec 16 → BitVec 8 → Instr}
    (hmk : ∀ addr v, WellFormed (mk addr v) = true ∧ encode (mk addr v) = encodeB op addr v)
    (hop : opField w = op) (h : decodeB mk w = .ok i) : Spells w i := by
  cases h
  exact ⟨(hmk _ _).1, by rw [(hmk _ _).2, ← hop, encodeB_fields]⟩

theorem spells_of_decodeBR {mk : BitVec 16 → Instr}
    (hmk : ∀ addr, WellFormed (mk addr) = true ∧ encode (mk addr) = encodeBR op addr)
    (hop : opField w = op) (h : decodeBR mk w = .ok i) : Spells w i := by
  obtain ⟨h0, rfl⟩ := decodeBR_eq_ok_iff.1 h
  exact ⟨(hmk _).1, by rw [(hmk _).2, ← hop, encodeBR_fields h0]⟩

/-- What a word decodes to, opcode by opcode in the order of R77. -/
theorem spells_of_decode (h : decode w = .ok i) : Spells w i := by
  have opIs {n : Nat} (hn : (opField w).toNat = n) : opField w = BitVec.ofNat 8 n := by
    rw [← hn, BitVec.ofNat_toNat, BitVec.setWidth_eq]
  unfold decode at h
  split at h <;> rename_i hop
  · exact spells_of_decodeN ⟨rfl, rfl⟩ (opIs hop) h
  · exact spells_of_decodeD (fun _ _ => ⟨rfl, rfl⟩) (opIs hop) h
  · exact spells_of_decodeE (fun _ _ _ => ⟨rfl, rfl⟩) (opIs hop) h
  · exact spells_of_decodeI24 (fun _ => ⟨rfl, rfl⟩) (opIs hop) h
  · exact spells_of_decodeI16 (fun _ => ⟨rfl, rfl⟩) (opIs hop) h
  · exact spells_of_decodeB (fun _ _ => ⟨rfl, rfl⟩) (opIs hop) h
  · exact spells_of_decodeI16 (fun _ => ⟨rfl, rfl⟩) (opIs hop) h
  · exact spells_of_decodeN ⟨rfl, rfl⟩ (opIs hop) h
  · exact spells_of_decodeER (fun _ _ => ⟨rfl, rfl⟩) (opIs hop) h
  · exact spells_of_decodeN ⟨rfl, rfl⟩ (opIs hop) h
  · exact spells_of_decodeN ⟨rfl, rfl⟩ (opIs hop) h
  · exact spells_of_decodeER (fun _ _ => ⟨rfl, rfl⟩) (opIs hop) h
  · exact spells_of_decodeER (fun _ _ => ⟨rfl, rfl⟩) (opIs hop) h
  · exact spells_of_decodeN ⟨rfl, rfl⟩ (opIs hop) h
  · exact spells_of_decodeN ⟨rfl, rfl⟩ (opIs hop) h
  · exact spells_of_decodeBR (fun _ => ⟨rfl, rfl⟩) (opIs hop) h
  · exact spells_of_decodeBR (fun _ => ⟨rfl, rfl⟩) (opIs hop) h
  · exact spells_of_decodeN ⟨rfl, rfl⟩ (opIs hop) h
  · exact spells_of_decodeN ⟨rfl, rfl⟩ (opIs hop) h
  · exact spells_of_decodeN ⟨rfl, rfl⟩ (opIs hop) h
  · exact spells_of_decodeN ⟨rfl, rfl⟩ (opIs hop) h
  · exact spells_of_decodeN ⟨rfl, rfl⟩ (opIs hop) h
  · exact spells_of_decodeN ⟨rfl, rfl⟩ (opIs hop) h
  · exact spells_of_decodeN ⟨rfl, rfl⟩ (opIs hop) h
  · exact spells_of_decodeN ⟨rfl, rfl⟩ (opIs hop) h
  · exact spells_of_decodeN ⟨rfl, rfl⟩ (opIs hop) h
  · cases h

theorem decode_eq_ok_iff : decode w = .ok i ↔ Spells w i :=
  ⟨spells_of_decode, fun ⟨hwf, hw⟩ => hw ▸ decode_encode hwf⟩

end

/-! ## The opcode of a command (R77) -/

theorem opField_encode (i : Instr) : opField (encode i) = Laws.opcodeOf i := by
  cases i <;> simp [encode, Laws.opcodeOf]

theorem opField_of_decode {w : Word} {i : Instr} (h : decode w = .ok i) :
    opField w = Laws.opcodeOf i := by
  obtain ⟨-, rfl⟩ := spells_of_decode h
  exact opField_encode i

/-- A row of the map names a command by its mnemonic exactly when it does by its opcode. -/
theorem mnemonic_eq_iff_opcodeOf_eq (i : Instr) :
    ∀ row ∈ opcodeTable, i.mnemonic = row.mnemonic ↔ Laws.opcodeOf i = opField row.pattern := by
  cases i <;> simp only [Instr.mnemonic, Laws.opcodeOf] <;> decide +kernel

/-! ## The opcode map (R77) -/

/-- The check of bits 23:0 that R77 prints for a row: no bit of `reserved` is 1 and, where the format is
E or ER, neither index is 3. -/
def Clean (reserved : BitVec 24) (indexed : Bool) (w : Word) : Prop :=
  simm24Field w &&& reserved = 0 ∧
    (!indexed || (indexLegal (rField w) && indexLegal (cField w))) = true

/-- A word is its opcode and its bits 23:0. -/
theorem word_eq_iff {w v : Word} :
    w = v ↔ opField w = opField v ∧ simm24Field w = simm24Field v := by
  refine ⟨fun h => h ▸ ⟨rfl, rfl⟩, fun ⟨hop, hlow⟩ => ?_⟩
  rw [← encodeI24_fields (w := w), hop, hlow, encodeI24_fields]

/-- A mask that covers the opcode and a pattern that fixes no other bit at 1. -/
theorem and_mask_eq_iff {w m p : Word} (hm : opField m = BitVec.allOnes 8)
    (hp : simm24Field p = 0) :
    w &&& m = p ↔ opField w = opField p ∧ simm24Field w &&& simm24Field m = 0 := by
  have hop : opField (w &&& m) = opField w := by
    rw [opField, BitVec.extractLsb'_and, ← opField, ← opField, hm, BitVec.and_allOnes]
  have hlow : simm24Field (w &&& m) = simm24Field w &&& simm24Field m := BitVec.extractLsb'_and
  rw [word_eq_iff, hop, hlow, hp]

theorem opcodeTable_masks : ∀ row ∈ opcodeTable,
    opField row.mask = BitVec.allOnes 8 ∧ simm24Field row.pattern = 0 := by decide +kernel

/-- A word spells a row's command when it has the row's opcode and passes the row's check. -/
theorem row_spells_iff_clean {row : OpRow} (hrow : row ∈ opcodeTable) (w : Word) :
    row.spells w = true ↔
      opField w = opField row.pattern ∧ Clean (simm24Field row.mask) row.indexed w := by
  obtain ⟨hm, hp⟩ := opcodeTable_masks row hrow
  rw [OpRow.spells, Bool.and_eq_true_iff, beq_iff_eq, and_mask_eq_iff hm hp, and_assoc, Clean]

/-- Ones in bits `lo + len - 1` down to `lo`. -/
def fieldMask (lo len : Nat) : BitVec 24 := (BitVec.allOnes len).setWidth 24 <<< lo

theorem getLsbD_fieldMask (lo len k : Nat) :
    (fieldMask lo len).getLsbD k = decide (k < 24 ∧ lo ≤ k ∧ k < lo + len) := by
  rw [Bool.eq_iff_iff]
  simp [fieldMask]
  omega

section
variable {w : Word}

/-- No bit of a field is 1 exactly when the field reads 0. -/
theorem and_fieldMask_eq_zero_iff {lo len : Nat} (h : lo + len ≤ 24) :
    simm24Field w &&& fieldMask lo len = 0 ↔ w.extractLsb' lo len = 0 := by
  rw [BitVec.eq_of_getLsbD_eq_iff, BitVec.eq_of_getLsbD_eq_iff]
  simp only [simm24Field, BitVec.getLsbD_and, getLsbD_fieldMask, BitVec.getLsbD_extractLsb',
    BitVec.ofNat_eq_ofNat, BitVec.getLsbD_zero]
  constructor
  · intro hmask k hk
    have hin : lo + k < 24 := by omega
    simpa [hk, hin] using hmask (lo + k) hin
  · intro hfield k hk
    rcases lt_or_ge k lo with hlo | hlo
    · simp [hlo]
    · obtain ⟨j, rfl⟩ := Nat.exists_eq_add_of_le hlo
      by_cases hj : j < len
      · have hbit : w.getLsbD (lo + j) = false := by simpa [hj] using hfield j hj
        simp [hbit]
      · simp [hj]

theorem clean_fieldMask_iff {lo len : Nat} {indexed : Bool} (h : lo + len ≤ 24) :
    Clean (fieldMask lo len) indexed w ↔ w.extractLsb' lo len = 0 ∧
      (!indexed || (indexLegal (rField w) && indexLegal (cField w))) = true := by
  rw [Clean, and_fieldMask_eq_zero_iff h]

/-! Which words each format's decoder accepts, as a check of bits 23:0. -/

theorem exists_decodeN_iff {j : Instr} :
    (∃ i, decodeN j w = .ok i) ↔ Clean (fieldMask 0 24) false w := by
  rw [clean_fieldMask_iff (by decide)]
  simp [decodeN_eq_ok_iff]

theorem exists_decodeD_iff {mk : BitVec 4 → BitVec 4 → Instr} :
    (∃ i, decodeD mk w = .ok i) ↔ Clean (fieldMask 8 16) false w := by
  rw [clean_fieldMask_iff (by decide)]
  simp [decodeD_eq_ok_iff]

theorem exists_decodeE_iff {mk : BitVec 2 → BitVec 2 → BitVec 8 → Instr} :
    (∃ i, decodeE mk w = .ok i) ↔ Clean (fieldMask 12 12) true w := by
  rw [clean_fieldMask_iff (by decide)]
  simp [decodeE_eq_ok_iff]

theorem exists_decodeER_iff {mk : BitVec 2 → BitVec 2 → Instr} :
    (∃ i, decodeER mk w = .ok i) ↔ Clean (fieldMask 12 12 ||| fieldMask 0 8) true w := by
  rw [Clean, BitVec.and_or_distrib_left, BitVec.ofNat_eq_ofNat, BitVec.or_eq_zero_iff,
    ← BitVec.ofNat_eq_ofNat, and_fieldMask_eq_zero_iff (by decide),
    and_fieldMask_eq_zero_iff (by decide)]
  simp [decodeER_eq_ok_iff]

theorem exists_decodeI24_iff {mk : BitVec 24 → Instr} :
    (∃ i, decodeI24 mk w = .ok i) ↔ Clean 0 false w := by
  simp [decodeI24, Clean]

theorem exists_decodeI16_iff {mk : BitVec 16 → Instr} :
    (∃ i, decodeI16 mk w = .ok i) ↔ Clean (fieldMask 16 8) false w := by
  rw [clean_fieldMask_iff (by decide)]
  simp [decodeI16_eq_ok_iff]

theorem exists_decodeB_iff {mk : BitVec 16 → BitVec 8 → Instr} :
    (∃ i, decodeB mk w = .ok i) ↔ Clean 0 false w := by
  simp [decodeB, Clean]

theorem exists_decodeBR_iff {mk : BitVec 16 → Instr} :
    (∃ i, decodeBR mk w = .ok i) ↔ Clean (fieldMask 0 8) false w := by
  rw [clean_fieldMask_iff (by decide)]
  simp [decodeBR_eq_ok_iff]

/-- A word with the opcode of a row decodes exactly when it passes the row's check: row by row, the mask
column fixes the bits that the row's format reserves. -/
theorem exists_decode_iff_clean {row : OpRow} (hrow : row ∈ opcodeTable)
    (hop : opField w = opField row.pattern) :
    (∃ i, decode w = .ok i) ↔ Clean (simm24Field row.mask) row.indexed w := by
  simp only [opcodeTable, List.cons_append, List.nil_append] at hrow
  fin_cases hrow
  all_goals rw [decode, hop]
  · exact exists_decodeN_iff
  · exact exists_decodeD_iff
  · exact exists_decodeE_iff
  · exact exists_decodeI24_iff
  · exact exists_decodeI16_iff
  · exact exists_decodeB_iff
  · exact exists_decodeI16_iff
  · exact exists_decodeN_iff
  · exact exists_decodeER_iff
  · exact exists_decodeN_iff
  · exact exists_decodeN_iff
  · exact exists_decodeER_iff
  · exact exists_decodeER_iff
  · exact exists_decodeN_iff
  · exact exists_decodeN_iff
  · exact exists_decodeBR_iff
  · exact exists_decodeBR_iff
  all_goals exact exists_decodeN_iff

/-- A word spells a row's command exactly when it has the row's opcode and decodes. -/
theorem row_spells_iff_exists_decode {row : OpRow} (hrow : row ∈ opcodeTable) :
    row.spells w = true ↔ opField w = opField row.pattern ∧ ∃ i, decode w = .ok i := by
  rw [row_spells_iff_clean hrow]
  exact and_congr_right fun hop => (exists_decode_iff_clean hrow hop).symm

end

theorem opcodeOf_assigned (i : Instr) :
    (Laws.opcodeOf i).toNat ≤ 0x06 ∨
      (0x10 ≤ (Laws.opcodeOf i).toNat ∧ (Laws.opcodeOf i).toNat ≤ 0x19) ∨
      (0x20 ≤ (Laws.opcodeOf i).toNat ∧ (Laws.opcodeOf i).toNat ≤ 0x28) := by
  cases i <;> simp [Laws.opcodeOf]

/-- A spelled word has no bit set that the row fixes at 0. -/
theorem and_fixedZeros_of_row_spells {row : OpRow} {w : Word} (h : row.spells w = true) :
    w &&& (row.mask &&& ~~~row.pattern) = 0 := by
  obtain ⟨hmask, -⟩ := Bool.and_eq_true_iff.1 h
  rw [← BitVec.and_assoc, beq_iff_eq.1 hmask, BitVec.and_not_self]

/-- No index of a spelled word of format E or ER is 3. -/
theorem indices_ne_three_of_row_spells {row : OpRow} {w : Word} (h : row.spells w = true)
    (hidx : row.indexed = true) : rField w ≠ 3 ∧ cField w ≠ 3 := by
  obtain ⟨-, hlegal⟩ := Bool.and_eq_true_iff.1 h
  simpa [hidx, indexLegal] using hlegal

/-- Settles O1: each format's decoder reads back its encoder's fields (`decode_encode`). -/
theorem encodedCommandDecodesToItself : Obligations.EncodedCommandDecodesToItself :=
  fun _ hwf => decode_eq_ok_iff.2 ⟨hwf, rfl⟩

/-- Settles O2: an accepted word is rebuilt from its opcode and fields (`spells_of_decode`). -/
theorem decodedWordIsTheEncoding : Obligations.DecodedWordIsTheEncoding :=
  fun _ _ => decode_eq_ok_iff.1

/-- Settles O4: among the words that decode, a row's mnemonic and its opcode pick out the same. -/
theorem decoderAgreesWithOpcodeMap : Obligations.DecoderAgreesWithOpcodeMap := by
  intro row hrow w
  rw [row_spells_iff_exists_decode hrow, ← exists_and_left]
  refine exists_congr fun i => ?_
  rw [and_comm]
  refine and_congr_right fun hd => ?_
  rw [opField_of_decode hd, mnemonic_eq_iff_opcodeOf_eq i row hrow]

end Sys2Proof

namespace Sys2Proof.Machine

/-! ## The words answered `IllegalCommand` (R78, R79) -/

theorem step_of_not_decode {s : State} {w : Word} {rest : List HostEvent}
    (hin : s.inputs = .command w :: rest) (hw : ¬ ∃ i, decode w = .ok i) :
    step s = .next { s with inputs := rest, responses := s.responses ++ [⟨7, 0⟩] } := by
  cases hd : decode w with
  | ok i => exact absurd ⟨i, hd⟩ hw
  | error e => rw [step_command hin, runWord, hd, rejectWord_eq]; rfl

/-- Settles O5: no command has such an opcode. -/
theorem unassignedOpcodeIsIllegal : Obligations.UnassignedOpcodeIsIllegal := by
  intro s w rest hin hop
  refine step_of_not_decode hin fun ⟨i, hd⟩ => ?_
  rw [opField_of_decode hd] at hop
  have := opcodeOf_assigned i
  omega

/-- Settles O6: were such a word decoded, it would spell the row's command. -/
theorem reservedBitOrIndexThreeIsIllegal : Obligations.ReservedBitOrIndexThreeIsIllegal := by
  intro row hrow s w rest hin hop hbad
  refine step_of_not_decode hin fun hd => ?_
  have hspells := (row_spells_iff_exists_decode hrow).2 ⟨hop, hd⟩
  rcases hbad with hbit | ⟨hidx, hthree⟩
  · exact hbit (and_fixedZeros_of_row_spells hspells)
  · obtain ⟨hr, hc⟩ := indices_ne_three_of_row_spells hspells hidx
    exact hthree.elim hr hc

/-! ## The assembler (R83, R84)

Each function of the assembler, from the pseudo-instructions up to a line, gives well-formed commands
only. -/

/-- Every command is well-formed. -/
def AllWellFormed (is : List Instr) : Prop := ∀ i ∈ is, WellFormed i = true

@[simp] theorem allWellFormed_nil : AllWellFormed [] := by simp [AllWellFormed]

@[simp] theorem allWellFormed_cons {i : Instr} {is : List Instr} :
    AllWellFormed (i :: is) ↔ WellFormed i = true ∧ AllWellFormed is := by simp [AllWellFormed]

@[simp] theorem allWellFormed_append {is js : List Instr} :
    AllWellFormed (is ++ js) ↔ AllWellFormed is ∧ AllWellFormed js := by
  simp [AllWellFormed, or_imp, forall_and]

theorem allWellFormed_key2 (a b c d : BitVec 8) : AllWellFormed (key2 a b c d) := by
  simp [key2, WellFormed, indexLegal]

theorem allWellFormed_key3 (a b c d e f g h i : BitVec 8) :
    AllWellFormed (key3 a b c d e f g h i) := by
  simp [key3, WellFormed, indexLegal]

theorem allWellFormed_msgBytes (codes : List (BitVec 8)) :
    ∀ k, AllWellFormed (msgBytes k codes) := by
  induction codes with
  | nil => intro k; exact allWellFormed_nil
  | cons b rest ih => intro k; exact allWellFormed_cons.2 ⟨rfl, ih (k + 1)⟩

theorem allWellFormed_msgText (codes : List (BitVec 8)) : AllWellFormed (msgText codes) := by
  simp [msgText, allWellFormed_msgBytes, WellFormed]

section
variable {is : List Instr}

/-- One command made from an operand that was in range. -/
theorem allWellFormed_of_map {α : Type} {o : Option α} {mk : α → Instr}
    (hmk : ∀ v, WellFormed (mk v) = true) (h : (o.map fun v => [mk v]) = some is) :
    AllWellFormed is := by
  obtain ⟨v, -, rfl⟩ := Option.map_eq_some_iff.1 h
  simp [hmk]

theorem indexLegal_of_indexOperand {n : Number} {x : BitVec 2} (h : indexOperand n = some x) :
    indexLegal x = true := (Option.filter_eq_some_iff.1 h).2

/-- The indices of an entry command are checked before the command is made. -/
theorem allWellFormed_assembleEntry {mk : BitVec 2 → BitVec 2 → Instr}
    (hmk : ∀ r c, WellFormed (mk r c) = (indexLegal r && indexLegal c)) {x y : Number}
    (h : assembleEntry mk x y = some is) : AllWellFormed is := by
  unfold assembleEntry at h
  split at h
  · next hr hc =>
    cases h
    simp [hmk, indexLegal_of_indexOperand hr, indexLegal_of_indexOperand hc]
  · cases h

theorem allWellFormed_assembleOne {m : List Char} {x : Number}
    (h : assembleOne m x = some is) : AllWellFormed is := by
  unfold assembleOne at h
  split_ifs at h <;> exact allWellFormed_of_map (fun _ => rfl) h

theorem allWellFormed_assembleTwo {m : List Char} {x y : Number}
    (h : assembleTwo m x y = some is) : AllWellFormed is := by
  unfold assembleTwo at h
  split_ifs at h
  · split at h
    · cases h; simp [WellFormed]
    · cases h
  · split at h
    · cases h; simp [WellFormed]
    · cases h
  all_goals exact allWellFormed_assembleEntry (fun _ _ => rfl) h

theorem allWellFormed_assembleThree {m : List Char} {x y z : Number}
    (h : assembleThree m x y z = some is) : AllWellFormed is := by
  unfold assembleThree at h
  split_ifs at h
  split at h
  · exact allWellFormed_assembleEntry (fun _ _ => rfl) h
  · cases h

theorem allWellFormed_assembleKey {m : List Char} {bs : List (BitVec 8)}
    (h : assembleKey m bs = some is) : AllWellFormed is := by
  unfold assembleKey at h
  split at h
  · split_ifs at h
    cases h; exact allWellFormed_key2 _ _ _ _
  · split_ifs at h
    cases h; exact allWellFormed_key3 _ _ _ _ _ _ _ _ _
  · cases h

theorem wellFormed_of_mem_plainCommands : ∀ i ∈ plainCommands, WellFormed i = true := by decide

theorem allWellFormed_assembleOps {m : List Char} {ops : List Number}
    (h : assembleOps m ops = some is) : AllWellFormed is := by
  unfold assembleOps at h
  split at h
  · obtain ⟨i, hi, rfl⟩ := Option.map_eq_some_iff.1 h
    simp [wellFormed_of_mem_plainCommands i (List.mem_of_find?_eq_some hi)]
  · exact allWellFormed_assembleOne h
  · exact allWellFormed_assembleTwo h
  · exact allWellFormed_assembleThree h
  · obtain ⟨bs, -, hkey⟩ := Option.bind_eq_some_iff.1 h
    exact allWellFormed_assembleKey hkey

theorem allWellFormed_assembleMsg {cs : List Char} (h : assembleMsg cs = some is) :
    AllWellFormed is := by
  unfold assembleMsg at h
  split_ifs at h
  obtain ⟨codes, -, rfl⟩ := Option.map_eq_some_iff.1 h
  exact allWellFormed_msgText codes

theorem allWellFormed_assembleLine {line : List Char} (h : assembleLine line = some is) :
    AllWellFormed is := by
  unfold assembleLine at h
  split at h
  · cases h
  · cases h; exact allWellFormed_nil
  · split_ifs at h
    exact allWellFormed_assembleMsg h
  · obtain ⟨ops, -, hops⟩ := Option.bind_eq_some_iff.1 h
    exact allWellFormed_assembleOps hops
  · cases h

end

/-- Settles O7: the commands of a line are well-formed, so their words decode to them (O1). -/
theorem assemblerEmitsOnlyCommands : Obligations.AssemblerEmitsOnlyCommands := by
  intro line is h i hi
  have hwf := allWellFormed_assembleLine h i hi
  exact ⟨hwf, decode_encode hwf⟩

end Sys2Proof.Machine
end

section
/-! PROOFS, family 40_data_movement.md: the 17 data movement commands (O21 to O27). What an entry
command, a read of a matrix register and a read of a buffer answer is said once each; that a command's
word decodes to it is `decode_encode`. -/

namespace Sys2Proof.Machine

/-! ## Operand values (30_encoding.md R82, 40_data_movement.md R107) -/

@[simp] theorem toInt_sext24 (v : BitVec 24) : (sext24 v).toInt = v.toInt :=
  BitVec.toInt_signExtend_of_le (by decide)

@[simp] theorem toNat_zext16 (v : BitVec 16) : (zext16 v).toNat = v.toNat :=
  BitVec.toNat_setWidth_of_le (by decide)

@[simp] theorem toNat_zext8 (v : Byte) : (zext8 v).toNat = v.toNat :=
  BitVec.toNat_setWidth_of_le (by decide)

/-- `COLS` stands above the four bits of `ROWS`. -/
theorem toNat_kdimWord (d : Kdim) : (kdimWord d).toNat = d.cols.toNat * 16 + d.rows.toNat := by
  have happend : (d.cols ++ d.rows).toNat = d.cols.toNat * 16 + d.rows.toNat := by
    rw [BitVec.toNat_append, ← Nat.shiftLeft_add_eq_or_of_lt d.rows.isLt, Nat.shiftLeft_eq]
  rw [kdimWord, BitVec.zeroExtend, BitVec.toNat_setWidth_of_le (by decide), happend]

/-! ## Entry commands (R102, R108, R111, R112, 30_encoding.md R79) -/

section
variable {s : State} {r c : BitVec 2}

theorem indexLegal_of_ne_three {x : BitVec 2} (h : x ≠ 3) : indexLegal x = true := bne_iff_ne.2 h

/-- A command on an entry whose indices are not 3 is a command of the unit. -/
theorem indicesLegal_of_ne_three (hr : r ≠ 3) (hc : c ≠ 3) :
    (indexLegal r && indexLegal c) = true := by
  rw [indexLegal_of_ne_three hr, indexLegal_of_ne_three hc, Bool.and_self]

theorem index_ne_three {x : BitVec 2} {i : Fin 3} (h : x.toNat = i.val) : x ≠ 3 := by
  rintro rfl
  exact i.isLt.ne h.symm

theorem atEntry_of_ne_three (hr : r ≠ 3) (hc : c ≠ 3) (f : Fin 3 → Fin 3 → Result) :
    ∃ i j : Fin 3, r.toNat = i.val ∧ c.toNat = j.val ∧ atEntry r c s f = f i j :=
  (atEntry_cases r c s f).resolve_right fun ⟨h, _⟩ => h.elim hr hc

/-- The entry reached is the one its indices name. -/
theorem atEntry_of_toNat_eq {i j : Fin 3} (hr : r.toNat = i.val) (hc : c.toNat = j.val)
    (f : Fin 3 → Fin 3 → Result) : atEntry r c s f = f i j := by
  obtain ⟨i', j', hi, hj, h⟩ := atEntry_of_ne_three (index_ne_three hr) (index_ne_three hc) f
  rw [h, Fin.ext (hi.symm.trans hr), Fin.ext (hj.symm.trans hc)]

theorem atEntry_of_eq_three (h : r = 3 ∨ c = 3) (f : Fin 3 → Fin 3 → Result) :
    atEntry r c s f = .next (replyError s 7) := by
  rcases atEntry_cases r c s f with ⟨i, j, hr, hc, -⟩ | ⟨-, he⟩
  · exact (h.elim (index_ne_three hr) (index_ne_three hc)).elim
  · exact he

/-- Reading an entry of a matrix register returns it, whatever `KDIM` says. -/
theorem exec_matrixRead {i : Instr} {M : Mat3 Byte}
    (h : exec i s = atEntry r c s fun a b => respond (zext8 (matGet M a b)) s) {a b : Fin 3}
    (hr : r.toNat = a.val) (hc : c.toNat = b.val) :
    ∃ d, exec i s = .next (reply s s.unit 0 d) ∧ d.toNat = (matGet M a b).toNat :=
  ⟨_, h.trans (atEntry_of_toNat_eq hr hc _), toNat_zext8 _⟩

end

/-! ## Buffers (R105, R115, R116, 20_memory.md R62) -/

theorem writeMsg_of_lt (u : UnitState) {addr : Nat} (h : addr < Config.msgCap) (v : Byte) :
    writeMsg u addr v = some { u with msg := Memory.write u.msg addr v } := if_pos h

theorem writeMsg_of_le (u : UnitState) {addr : Nat} (h : Config.msgCap ≤ addr) (v : Byte) :
    writeMsg u addr v = none := if_neg (Nat.not_lt.2 h)

/-- Reading a buffer of capacity `cap` returns the byte, or is `BufferRange` at and above `cap`. -/
theorem exec_bufferRead {s : State} {i : Instr} {addr cap : Nat} {b : Byte}
    (h : exec i s = orElseRaise (if addr < cap then some b else none) .bufferRange s
      fun x => respond (zext8 x) s) :
    (addr < cap → ∃ d, exec i s = .next (reply s s.unit 0 d) ∧ d.toNat = b.toNat) ∧
      (cap ≤ addr → exec i s = .next (replyError s 8)) := by
  constructor
  · intro hlt
    rw [if_pos hlt] at h
    exact ⟨_, h, toNat_zext8 b⟩
  · intro hle
    rw [if_neg (Nat.not_lt.2 hle)] at h
    exact h

/-! ## The commands -/

/-- Settles O23: the write reaches the one byte (`read_write`), and none beyond the capacity. -/
theorem ldbStoresOneMessageByte : Obligations.LdbStoresOneMessageByte := by
  intro s addr v hwf
  refine ⟨decode_encode (i := .ldb addr v) rfl, fun hlt => ?_, fun hle => ?_⟩
  · refine ⟨Memory.write s.unit.msg addr.toNat v, ?_, fun a => read_write hwf addr.toNat a v⟩
    simp [exec, execLdb, writeMsg_of_lt s.unit hlt]
  · simp [exec, execLdb, writeMsg_of_le s.unit hle, ErrorKind.code]

/-- Settles O21: the meanings of the four commands, and that the extensions keep the value. -/
theorem registerLoadsWriteTheirRegister : Obligations.RegisterLoadsWriteTheirRegister :=
  ⟨decode_encode (i := .nop) rfl,
    fun rows cols => decode_encode (i := .setdim rows cols) rfl,
    fun v => decode_encode (i := .lda v) rfl,
    fun v => decode_encode (i := .ldm v) rfl,
    fun _ => rfl, fun _ _ _ => rfl,
    fun _ v => ⟨sext24 v, rfl, toInt_sext24 v⟩,
    fun _ v => ⟨zext16 v, rfl, toNat_zext16 v⟩⟩

/-- Settles O22: the indices name the entry, and `matGet_matSet` says which entry that changes. -/
theorem ldkLoadsOneKeyEntry : Obligations.LdkLoadsOneKeyEntry := by
  intro s r c v
  refine ⟨fun hr hc => decode_encode (i := .ldk r c v) (indicesLegal_of_ne_three hr hc),
    fun hr hc => ?_, fun h => atEntry_of_eq_three h _⟩
  obtain ⟨a, b, ha, hb, hexec⟩ := atEntry_of_ne_three (s := s) hr hc
    fun i j => respond 0 (s.withUnit (s.unit.setK i j v))
  refine ⟨matSet s.unit.k a b v, hexec, fun i j => ?_⟩
  simp only [matGet_matSet, ha, hb, Fin.ext_iff]

/-- Settles O24: the two sides of the meaning's one comparison with `MSGCAP`. -/
theorem setlenWritesABoundedLength : Obligations.SetlenWritesABoundedLength := by
  intro s v
  exact ⟨decode_encode (i := .setlen v) rfl, fun hle => if_neg (Nat.not_lt.2 hle),
    fun hlt => if_pos hlt⟩

/-- Settles O25: the meanings of the five commands, and the values of their data words. -/
theorem registerReadsReturnTheRegister : Obligations.RegisterReadsReturnTheRegister := fun s =>
  ⟨decode_encode (i := .rddim) rfl, decode_encode (i := .rda) rfl, decode_encode (i := .rdm) rfl,
    decode_encode (i := .rdlen) rfl, decode_encode (i := .rdolen) rfl,
    ⟨kdimWord s.unit.kdim, rfl, toNat_kdimWord _⟩, rfl, rfl,
    ⟨zext16 s.unit.msgLen, rfl, toNat_zext16 _⟩, ⟨zext16 s.unit.outLen, rfl, toNat_zext16 _⟩⟩

/-- Settles O26: three reads of one shape (`exec_matrixRead`), none of which looks at `KDIM`. -/
theorem matrixReadsReturnTheEntry : Obligations.MatrixReadsReturnTheEntry := by
  intro s r c
  refine ⟨fun hr hc => ?_, fun i j hr hc => ?_, fun h => ?_⟩
  · have hlegal := indicesLegal_of_ne_three hr hc
    exact ⟨decode_encode (i := .rdk r c) hlegal, decode_encode (i := .rdadj r c) hlegal,
      decode_encode (i := .rdinv r c) hlegal⟩
  · exact ⟨exec_matrixRead rfl hr hc, exec_matrixRead rfl hr hc, exec_matrixRead rfl hr hc⟩
  · exact ⟨atEntry_of_eq_three h _, atEntry_of_eq_three h _, atEntry_of_eq_three h _⟩

/-- Settles O27: two reads of one shape (`exec_bufferRead`), each with its own capacity. -/
theorem bufferReadsReturnTheByte : Obligations.BufferReadsReturnTheByte := by
  intro s addr
  obtain ⟨hmsg, hmsgRange⟩ := exec_bufferRead (i := .rdb addr) (s := s) (cap := Config.msgCap) rfl
  obtain ⟨hout, houtRange⟩ := exec_bufferRead (i := .rdo addr) (s := s) (cap := Config.outCap) rfl
  exact ⟨decode_encode (i := .rdb addr) rfl, decode_encode (i := .rdo addr) rfl,
    hmsg, hmsgRange, hout, houtRange⟩

end Sys2Proof.Machine
end

section
/-! PROOFS, family 41_determinant.md: which keys are valid (O28), the key errors of the seven key
commands (O29), and VALK, DET and CHKINV (O30 to O33). Each of the three commands starts from
`exec_of_validKey`; that a command's word decodes to it is `decode_encode`, and its answer to an
invalid key is `exec_of_keyError`. -/

namespace Sys2Proof.Machine

/-! ## Key validation (R130, R134, 60_exceptions.md R222, R223) -/

/-- The order is the number of rows. -/
theorem validKey_unique {u : UnitState} {n m : Nat} (h : ValidKey n u) (h' : ValidKey m u) :
    n = m := by
  obtain ⟨-, hn, -, -⟩ := h
  obtain ⟨-, hm, -, -⟩ := h'
  exact hn.symm.trans hm

/-- A command that begins with the key check goes on with the order of a valid key. -/
theorem exec_of_validKey {i : Instr} {s : State} {n : Nat} {f : Order → Result}
    (h : exec i s = orRaise (keycheck s.unit) s f) (hv : ValidKey n s.unit) :
    ∃ m, orderNat m = n ∧ exec i s = f m := by
  obtain ⟨m, hm, hk⟩ := keycheck_of_validKey hv
  exact ⟨m, hm, by rw [h, hk, orRaise_ok]⟩

theorem toNat_zextNat {n : Nat} (h : n < 2 ^ 32) : (zextNat n).toNat = n := by
  rw [zextNat, BitVec.toNat_ofNat, Nat.mod_eq_of_lt h]

/-- Settles O28: `keycheck` decides between the two, and each of its answers is the only one. -/
theorem everyKeyIsValidOrHasOneError : Obligations.EveryKeyIsValidOrHasOneError := by
  intro u
  cases hk : keycheck u with
  | ok n =>
    have hv := (keycheck_ok_iff u n).1 hk
    exact .inl ⟨⟨orderNat n, hv, fun _ hm => validKey_unique hm hv⟩,
      fun ⟨_, he⟩ => not_validKey_of_keyError he _ hv⟩
  | error e =>
    have he := keycheck_error u e hk
    exact .inr ⟨fun ⟨n, hv⟩ => not_validKey_of_keyError he n hv,
      ⟨e.code, he, fun _ he' => keyError_unique he' he⟩⟩

/-- Settles O29: the key check comes first in each of the seven, before the message is read. -/
theorem invalidKeyFailsEveryKeyCommand : Obligations.InvalidKeyFailsEveryKeyCommand :=
  fun _ _ h _ hi => exec_of_keyError hi h

/-- Settles O30: what VALK goes on to after the key check is the order itself. -/
theorem valkReturnsTheOrder : Obligations.ValkReturnsTheOrder := by
  refine ⟨decode_encode (i := .valk) rfl,
    fun s => ⟨fun n hv => ?_, fun _ => exec_of_keyError (by simp)⟩⟩
  obtain ⟨m, rfl, h⟩ := exec_of_validKey (i := .valk) rfl hv
  refine ⟨_, h, toNat_zextNat ?_⟩
  cases m <;> decide

/-! ## The range of the determinant (R133)

The order-3 determinant is a triple product `x ⬝ᵥ y ⨯₃ z` of the rows. Six products of three entries
would only bound it by 3 · 25³. But `y` is orthogonal to `y ⨯₃ z` and has no negative entry, so the
entries of `y ⨯₃ z` are not all positive: only two of the three terms can be, and each is at most
25³. -/

section
open Matrix

/-- Every entry of a row is one a key may have. -/
def EntriesInRange (x : Fin 3 → Int) : Prop := ∀ i, 0 ≤ x i ∧ x i ≤ 25

variable {x y z : Fin 3 → Int}

theorem entries_mul_range {a b : Int} (ha : 0 ≤ a ∧ a ≤ 25) (hb : 0 ≤ b ∧ b ≤ 25) :
    0 ≤ a * b ∧ a * b ≤ 625 :=
  ⟨mul_nonneg ha.1 hb.1, mul_le_mul ha.2 hb.2 hb.1 (by norm_num)⟩

theorem cross_le (hy : EntriesInRange y) (hz : EntriesInRange z) (i : Fin 3) :
    (y ⨯₃ z) i ≤ 625 := by
  have h : ∀ a b c d : Fin 3, y a * z b - y c * z d ≤ 625 := fun a b c d => by
    linarith [(entries_mul_range (hy a) (hz b)).2, (entries_mul_range (hy c) (hz d)).1]
  rw [cross_apply]
  fin_cases i
  · exact h 1 2 2 1
  · exact h 2 0 0 2
  · exact h 0 1 1 0

theorem exists_cross_nonpos (hy : EntriesInRange y) (z : Fin 3 → Int) : ∃ i, (y ⨯₃ z) i ≤ 0 := by
  by_contra! hpos
  have hterms : ∀ i, y i * (y ⨯₃ z) i = 0 := fun i =>
    (Finset.sum_eq_zero_iff_of_nonneg fun j _ => mul_nonneg (hy j).1 (hpos j).le).1
      (dot_self_cross y z) i (Finset.mem_univ i)
  have hy0 : y = 0 := funext fun i => (mul_eq_zero.1 (hterms i)).resolve_right (hpos i).ne'
  simpa [hy0] using hpos 0

theorem dotProduct_cross_le (hx : EntriesInRange x) (hy : EntriesInRange y)
    (hz : EntriesInRange z) : x ⬝ᵥ y ⨯₃ z ≤ 31250 := by
  have hterm : ∀ i, x i * (y ⨯₃ z) i ≤ 15625 := fun i => by
    linarith [mul_le_mul_of_nonneg_left (cross_le hy hz i) (hx i).1, (hx i).2]
  obtain ⟨i, hi⟩ := exists_cross_nonpos hy z
  calc x ⬝ᵥ y ⨯₃ z
      = x i * (y ⨯₃ z) i + ∑ j ∈ Finset.univ.erase i, x j * (y ⨯₃ z) j :=
        (Finset.add_sum_erase _ _ (Finset.mem_univ i)).symm
    _ ≤ 0 + (Finset.univ.erase i).card • 15625 :=
        add_le_add (mul_nonpos_of_nonneg_of_nonpos (hx i).1 hi)
          (Finset.sum_le_card_nsmul _ _ _ fun j _ => hterm j)
    _ = 31250 := by simp

/-- Exchanging two rows negates the triple product, so the upper bound is a lower one too. -/
theorem dotProduct_cross_range (hx : EntriesInRange x) (hy : EntriesInRange y)
    (hz : EntriesInRange z) : -31250 ≤ x ⬝ᵥ y ⨯₃ z ∧ x ⬝ᵥ y ⨯₃ z ≤ 31250 := by
  refine ⟨?_, dotProduct_cross_le hx hy hz⟩
  have h := dotProduct_cross_le hx hz hy
  rw [← cross_anticomm, dotProduct_neg] at h
  exact neg_le.1 h

theorem keyDet_three (u : UnitState) : keyDet 3 u = keyAt u 0 ⬝ᵥ keyAt u 1 ⨯₃ keyAt u 2 := by
  rw [dotProduct, Fin.sum_univ_three]
  simp [keyDet, cross_apply]
  ring

end

theorem keyAt_range {u : UnitState} {n : Nat} (h : ValidKey n u) {r c : Fin 3} (hr : r.val < n)
    (hc : c.val < n) : 0 ≤ keyAt u r c ∧ keyAt u r c ≤ 25 := by
  obtain ⟨-, -, -, hle⟩ := h
  exact ⟨keyAt_nonneg u r c, hle r c hr hc⟩

theorem keyDet_two_range {u : UnitState} (h : ValidKey 2 u) :
    -625 ≤ keyDet 2 u ∧ keyDet 2 u ≤ 625 := by
  have hrange : ∀ r c : Fin 3, r.val < 2 → c.val < 2 → 0 ≤ keyAt u r c ∧ keyAt u r c ≤ 25 :=
    fun _ _ => keyAt_range h
  have hmain := entries_mul_range (hrange 0 0 (by decide) (by decide))
    (hrange 1 1 (by decide) (by decide))
  have hanti := entries_mul_range (hrange 0 1 (by decide) (by decide))
    (hrange 1 0 (by decide) (by decide))
  rw [keyDet, if_pos rfl]
  omega

theorem keyDet_three_range {u : UnitState} (h : ValidKey 3 u) :
    -31250 ≤ keyDet 3 u ∧ keyDet 3 u ≤ 31250 := by
  have hrow : ∀ r, EntriesInRange (keyAt u r) := fun r c => keyAt_range h r.isLt c.isLt
  rw [keyDet_three]
  exact dotProduct_cross_range (hrow 0) (hrow 1) (hrow 2)

/-- The two's complement word of a valid key's determinant denotes it: it is far inside 32 bits. -/
theorem toInt_tc32_keyDet {u : UnitState} {n : Nat} (h : ValidKey n u) :
    (tc32 (keyDet n u)).toInt = keyDet n u := by
  have hrange : -31250 ≤ keyDet n u ∧ keyDet n u ≤ 31250 := by
    rcases h.1 with rfl | rfl
    · have := keyDet_two_range h
      omega
    · exact keyDet_three_range h
  exact BitVec.toInt_ofInt_eq_self (by decide) (by omega) (by omega)

/-- A unit, otherwise as after reset, whose key has order 3. -/
def unitOfKey3 (k : Mat3 Byte) : UnitState := { UnitState.reset with kdim := ⟨3, 3⟩, k := k }

/-- Settles O32: the bounds above; both are reached with zeros in three places and 25 elsewhere, two
rows exchanged between them. -/
theorem determinantStaysInRange : Obligations.DeterminantStaysInRange :=
  ⟨fun _ => ⟨keyDet_two_range, keyDet_three_range, fun _ => toInt_tc32_keyDet⟩,
    ⟨unitOfKey3 ⟨⟨0, 25, 25⟩, ⟨25, 0, 25⟩, ⟨25, 25, 0⟩⟩,
      by unfold ValidKey; decide, rfl, by decide⟩,
    ⟨unitOfKey3 ⟨⟨25, 0, 25⟩, ⟨0, 25, 25⟩, ⟨25, 25, 0⟩⟩,
      by unfold ValidKey; decide, by decide⟩⟩

/-! ## DET (R131, R132, R135) -/

/-- Settles O31: DET's data is the word of the determinant, which denotes it. -/
theorem detReturnsTheDeterminant : Obligations.DetReturnsTheDeterminant := by
  refine ⟨decode_encode (i := .det) rfl,
    fun s => ⟨fun n hv => ?_, fun _ => exec_of_keyError (by simp)⟩⟩
  obtain ⟨m, rfl, h⟩ := exec_of_validKey (i := .det) rfl hv
  rw [det_keyMatrix] at h
  exact ⟨_, h, toInt_tc32_keyDet hv⟩

/-! ## CHKINV (R136, R137) -/

/-- The twelve residues are the ones coprime to 26. -/
theorem mem_residues_iff (D : Int) :
    D % 26 ∈ [1, 3, 5, 7, 9, 11, 15, 17, 19, 21, 23, 25] ↔ Int.gcd (D % 26) 26 = 1 := by
  have hlo : 0 ≤ D % 26 := Int.emod_nonneg D (by decide)
  have hhi : D % 26 < 26 := Int.emod_lt_of_pos D (by decide)
  generalize D % 26 = d at hlo hhi ⊢
  interval_cases d <;> decide

theorem ne_zero_of_gcd_eq_one {d : Int} (h : Int.gcd d 26 = 1) : d ≠ 0 := by
  rintro rfl
  exact absurd h (by decide)

/-- The invertibility test is membership of the reduced determinant in the twelve residues. -/
theorem invertible26_iff_mem_residues (D : Int) :
    invertible26 D = true ↔ D % 26 ∈ [1, 3, 5, 7, 9, 11, 15, 17, 19, 21, 23, 25] := by
  rw [invertible26_iff, mem_residues_iff, Int.gcd_emod]

theorem toNat_zextNat_emod (D : Int) : ((zextNat (D % 26).toNat).toNat : Int) = D % 26 := by
  have hlo : 0 ≤ D % 26 := Int.emod_nonneg D (by decide)
  have hhi : D % 26 < 26 := Int.emod_lt_of_pos D (by decide)
  rw [toNat_zextNat (by omega), Int.toNat_of_nonneg hlo]

/-- Settles O33: the two branches of CHKINV's test, which is on the twelve residues. -/
theorem chkinvReturnsTheReducedDeterminant : Obligations.ChkinvReturnsTheReducedDeterminant := by
  refine ⟨decode_encode (i := .chkinv) rfl,
    fun s => ⟨fun n hv => ?_, fun _ => exec_of_keyError (by simp)⟩⟩
  obtain ⟨m, rfl, h⟩ := exec_of_validKey (i := .chkinv) rfl hv
  rw [det_keyMatrix, emod_q] at h
  have htest := invertible26_iff_mem_residues (keyDet (orderNat m) s.unit)
  refine ⟨?_, fun hmem => ?_, fun hmem => ?_⟩
  · rw [mem_residues_iff, and_iff_right_of_imp ne_zero_of_gcd_eq_one]
  · exact ⟨_, h.trans (if_pos (htest.2 hmem)), toNat_zextNat_emod _⟩
  · exact h.trans (if_neg (mt htest.1 hmem))

end Sys2Proof.Machine
end

section
/-! PROOFS, family 42_modular_inverse.md: GCD (O34) and MODINV (O35, O36). What the search for an
inverse finds is in Sys2Proof/Laws/Modular.lean; here it becomes MODINV's answer, once for an inverse
and once for none, and both obligations cite the two. -/

namespace Sys2Proof.Machine

/-! ## GCD (R150, R153) -/

/-- Both operands are words, so their greatest common divisor is one too: it is at most `MOD`, or with
`MOD = 0` it is `abs(signed(A))`. -/
theorem gcd_natAbs_toInt_lt (a m : Word) : Nat.gcd a.toInt.natAbs m.toNat < 2 ^ 32 := by
  rcases Nat.eq_zero_or_pos m.toNat with h0 | hpos
  · rw [h0, Nat.gcd_zero_right]
    have hlo := a.le_toInt
    have hhi := a.toInt_lt
    omega
  · exact (Nat.gcd_le_right _ hpos).trans_lt m.isLt

/-- Only two zero words have the greatest common divisor 0. -/
theorem gcd_natAbs_toInt_pos {a m : Word} (h : a ≠ 0 ∨ m ≠ 0) :
    0 < Nat.gcd a.toInt.natAbs m.toNat := by
  rw [Nat.gcd_pos_iff]
  refine h.imp (fun ha => Int.natAbs_pos.2 fun h0 => ha (BitVec.eq_of_toInt_eq h0)) fun hm => ?_
  exact Nat.pos_of_ne_zero fun h0 => hm (BitVec.eq_of_toNat_eq h0)

/-- GCD's data is the greatest common divisor, which fits its word. -/
theorem exec_gcd (s : State) : ∃ g, exec .gcd s = .next (reply s s.unit 0 g) ∧
    g.toNat = Nat.gcd s.unit.a.toInt.natAbs s.unit.modulus.toNat :=
  ⟨_, rfl, toNat_zextNat (gcd_natAbs_toInt_lt _ _)⟩

/-- Settles O34: `Nat.gcd` is a common divisor, every common divisor divides it, and it is positive
unless both operands are 0. -/
theorem gcdReturnsTheGreatestCommonDivisor : Obligations.GcdReturnsTheGreatestCommonDivisor := by
  refine ⟨decode_encode (i := .gcd) rfl, fun s => ?_⟩
  obtain ⟨g, hexec, hg⟩ := exec_gcd s
  refine ⟨g, hexec, fun ha hm => BitVec.eq_of_toNat_eq ?_, fun hne => ?_⟩
  · rw [hg, ha, hm]
    rfl
  · have hpos := gcd_natAbs_toInt_pos hne
    rw [hg]
    exact ⟨hpos, Nat.gcd_dvd_left _ _, Nat.gcd_dvd_right _ _,
      fun e hea hem => Nat.le_of_dvd hpos (Nat.dvd_gcd hea hem)⟩

/-! ## MODINV (R151, R152, R154) -/

theorem exec_modinv (s : State) :
    exec .modinv s = orElseRaise (modinv s.unit.a.toInt s.unit.modulus.toNat) .noModularInverse s
      fun x => respond (zextNat x) s := rfl

/-- MODINV answers any inverse there is: it is below `MOD`, so it fits the data word. -/
theorem exec_modinv_of_inverse {s : State} {x : Nat} (h1 : 1 ≤ x) (hx : x < s.unit.modulus.toNat)
    (h : (s.unit.a.toInt * x) % (s.unit.modulus.toNat : Int) = 1) :
    ∃ d, exec .modinv s = .next (reply s s.unit 0 d) ∧ d.toNat = x := by
  rw [exec_modinv, modinv_of_inverse h1 hx h]
  exact ⟨_, rfl, toNat_zextNat (hx.trans s.unit.modulus.isLt)⟩

theorem exec_modinv_of_no_inverse {s : State}
    (h : ∀ x : Nat, 1 ≤ x → x < s.unit.modulus.toNat →
      (s.unit.a.toInt * x) % (s.unit.modulus.toNat : Int) ≠ 1) :
    exec .modinv s = .next (replyError s 4) := by
  have hnone : modinv s.unit.a.toInt s.unit.modulus.toNat = none :=
    Option.eq_none_iff_forall_ne_some.2 fun x hsome => by
      obtain ⟨h1, hx, hinv⟩ := modinv_some hsome
      exact h x h1 hx hinv
  rw [exec_modinv, hnone]
  rfl

/-- Settles O35: the two answers above are its two clauses. -/
theorem modinvReturnsTheInverse : Obligations.ModinvReturnsTheInverse :=
  ⟨decode_encode (i := .modinv) rfl,
    fun _ => ⟨fun _ => exec_modinv_of_inverse, exec_modinv_of_no_inverse⟩⟩

/-- Settles O36: an inverse exists exactly in the coprime case (`exists_inverse_iff`). -/
theorem modinvSucceedsExactlyWhenCoprime : Obligations.ModinvSucceedsExactlyWhenCoprime := by
  refine fun s => ⟨fun hm hgcd => ?_, fun hnot => ?_⟩
  · obtain ⟨x, h1, hx, h⟩ := exists_inverse_iff.2 ⟨hm, hgcd⟩
    obtain ⟨d, hexec, rfl⟩ := exec_modinv_of_inverse h1 hx h
    exact ⟨d, hexec, h1, hx, h⟩
  · refine exec_modinv_of_no_inverse fun x h1 hx h => ?_
    obtain ⟨hm, hgcd⟩ := exists_inverse_iff.1 ⟨x, h1, hx, h⟩
    exact hnot.elim hm.not_gt fun hne => hne hgcd

end Sys2Proof.Machine
end

section
/-! PROOFS, family 43_adjugate_inverse.md: the code 4 (O37), ADJ (O38, O39) and KINV (O40 to O42).
The entries inside the order are read as a square matrix over the integers modulo 26 (`residues`).
There the key's cofactors are Mathlib's adjugate and what KINV writes is the inverse matrix, so the
identities of R176 are those of Mathlib's `Matrix`. -/

namespace Sys2Proof.Machine

/-! ## `NoModularInverse` (R175) -/

/-- Settles O37: of the error answers only MODINV's has code 4 (`exec_answers`); success has 0. -/
theorem noModularInverseComesOnlyFromModinv :
    Obligations.NoModularInverseComesOnlyFromModinv := by
  intro i s u data h
  cases exec_answers i s with
  | error c _ _ h4 he =>
    obtain ⟨-, hc, -⟩ := reply_inj (Host.Outcome.next.inj (he.symm.trans h))
    exact h4 hc
  | ok u' d he _ =>
    obtain ⟨-, hc, -⟩ := reply_inj (Host.Outcome.next.inj (he.symm.trans h))
    exact absurd hc (by decide)
  | stop he _ _ _ => cases he.symm.trans h

/-! ## What ADJ and KINV answer (R170 to R174) -/

section
variable {s : State} {n : Nat}

/-- ADJ on a valid key. -/
theorem exec_adj_of_validKey (hv : ValidKey n s.unit) :
    ∃ J, exec .adj s = .next (reply s { s.unit with adj := J } 0 0) ∧
      ∀ r c : Fin 3, ((matGet J r c).toNat : Int) =
        if r.val < n ∧ c.val < n then keyCofactor n s.unit r c % 26 else 0 := by
  obtain ⟨m, rfl, hk⟩ := keycheck_of_validKey hv
  exact ⟨_, exec_adj hk, adj_entry m s.unit⟩

/-- KINV on a valid key with a determinant coprime to 26. -/
theorem exec_kinv_of_coprime (hv : ValidKey n s.unit) (hD : Int.gcd (keyDet n s.unit) 26 = 1) :
    ∃ x : Nat, 1 ≤ x ∧ x ≤ 25 ∧ (keyDet n s.unit * x) % 26 = 1 ∧
      ∃ V, exec .kinv s = .next (reply s { s.unit with inv := V } 0 0) ∧
        ∀ r c : Fin 3, ((matGet V r c).toNat : Int) =
          if r.val < n ∧ c.val < n then (x * (keyCofactor n s.unit r c % 26)) % 26 else 0 := by
  obtain ⟨m, rfl, hk⟩ := keycheck_of_validKey hv
  obtain ⟨hne, -⟩ | ⟨-, x, h1, h25, hx, hexec⟩ := exec_kinv_cases hk
  · exact absurd hD hne
  · exact ⟨x, h1, h25, hx, _, hexec, kinv_entry m s.unit x⟩

/-- KINV on a valid key with a factor in common with 26. -/
theorem exec_kinv_of_not_coprime (hv : ValidKey n s.unit)
    (hD : Int.gcd (keyDet n s.unit) 26 ≠ 1) : exec .kinv s = .next (replyError s 3) := by
  obtain ⟨m, rfl, hk⟩ := keycheck_of_validKey hv
  obtain ⟨-, hexec⟩ | ⟨heq, -⟩ := exec_kinv_cases hk
  · exact hexec
  · exact absurd heq hD

end

/-- Settles O38: the answers to a valid and to an invalid key. -/
theorem adjWritesTheAdjugate : Obligations.AdjWritesTheAdjugate :=
  ⟨decode_encode (i := .adj) rfl,
    fun _ => ⟨fun _ => exec_adj_of_validKey, fun _ => exec_of_keyError (by simp)⟩⟩

/-- Settles O40: the answers to a valid key, with and without an inverse, and to an invalid one. -/
theorem kinvWritesTheScaledAdjugate : Obligations.KinvWritesTheScaledAdjugate :=
  ⟨decode_encode (i := .kinv) rfl,
    fun _ => ⟨fun _ hv => ⟨exec_kinv_of_coprime hv, exec_kinv_of_not_coprime hv⟩,
      fun _ => exec_of_keyError (by simp)⟩⟩

/-! ## The entries inside the order as a matrix modulo 26 -/

/-- The array with `d` on the diagonal and 0 elsewhere. -/
def diagonalArray (d : Int) (r c : Fin 3) : Int := if r = c then d else 0

/-! Mathlib's casts into `ZMod 26`, in the numeral form the statements have. -/

theorem intCast_emod_26 (a : Int) : ((a % 26 : Int) : ZMod 26) = a := ZMod.intCast_mod a 26

theorem intCast_eq_iff_emod_26 {a b : Int} : (a : ZMod 26) = b ↔ a % 26 = b % 26 :=
  ZMod.intCast_eq_intCast_iff' a b 26

/-- The residues that have an inverse. -/
theorem isUnit_intCast_26 {d : Int} : IsUnit (d : ZMod 26) ↔ Int.gcd d 26 = 1 := by
  rw [ZMod.coe_int_isUnit_iff_isCoprime, isCoprime_comm, Int.isCoprime_iff_gcd_eq_one]
  rfl

section
variable {n : Nat} (hn : n = 2 ∨ n = 3) {X Y : Fin 3 → Fin 3 → Int}

/-- Row or column `i` inside the order, among the three of an array. -/
def inArray (i : Fin n) : Fin 3 := i.castLE (by omega)

/-- The entries of an array inside the order, modulo 26. -/
def residues (X : Fin 3 → Fin 3 → Int) : Matrix (Fin n) (Fin n) (ZMod 26) :=
  Matrix.of fun i j => (X (inArray hn i) (inArray hn j) : ZMod 26)

@[simp] theorem residues_apply (i j : Fin n) :
    residues hn X i j = (X (inArray hn i) (inArray hn j) : ZMod 26) := rfl

/-- The bridge back to the statements, which speak of remainders. -/
theorem residues_eq_iff : residues hn X = residues hn Y ↔
    ∀ r c : Fin 3, r.val < n → c.val < n → X r c % 26 = Y r c % 26 := by
  constructor
  · intro h r c hr hc
    exact intCast_eq_iff_emod_26.1 (congrFun (congrFun h ⟨r, hr⟩) ⟨c, hc⟩)
  · intro h
    ext i j
    exact intCast_eq_iff_emod_26.2 (h _ _ i.isLt j.isLt)

theorem residues_entryProduct :
    residues hn (entryProduct n X Y) = residues hn X * residues hn Y := by
  ext i j
  rcases hn with rfl | rfl
  · simp [entryProduct, Matrix.mul_apply, inArray]
  · simp [entryProduct, Matrix.mul_apply, Fin.sum_univ_three, inArray]

theorem residues_diagonalArray (d : Int) :
    residues hn (diagonalArray d) = (d : ZMod 26) • (1 : Matrix (Fin n) (Fin n) (ZMod 26)) := by
  ext i j
  have hinj : inArray hn i = inArray hn j ↔ i = j := (Fin.castLE_injective _).eq_iff
  by_cases hij : i = j <;> simp [diagonalArray, hinj, hij]

/-- The determinant of R131 and R132 is the determinant, modulo 26. -/
theorem det_residues (u : UnitState) : (residues hn (keyAt u)).det = (keyDet n u : ZMod 26) := by
  rcases hn with rfl | rfl
  · simp [keyDet, Matrix.det_fin_two, inArray]
  · simp [keyDet, Matrix.det_fin_three, inArray]
    ring

/-- The cofactors of R170 and R171 are the adjugate, modulo 26. -/
theorem residues_keyCofactor (u : UnitState) :
    residues hn (keyCofactor n u) = (residues hn (keyAt u)).adjugate := by
  rcases hn with rfl | rfl
  · rw [Matrix.adjugate_fin_two]
    ext i j
    fin_cases i <;> fin_cases j <;> simp [keyCofactor, inArray]
  · rw [Matrix.adjugate_fin_three]
    ext i j
    fin_cases i <;> fin_cases j <;> simp [keyCofactor, keyMinor, others, inArray] <;> ring

end

theorem ValidKey.order {n : Nat} {u : UnitState} (hv : ValidKey n u) : n = 2 ∨ n = 3 := hv.1

/-- The entries of a matrix register as integers. -/
def entries (M : Mat3 Byte) (r c : Fin 3) : Int := ((matGet M r c).toNat : Int)

/-! ## The adjugate times the key (R176) -/

/-- ADJ writes the adjugate of the key modulo 26. -/
theorem exec_adj_writes_adjugate {s : State} {n : Nat} (hv : ValidKey n s.unit) :
    ∃ J, exec .adj s = .next (reply s { s.unit with adj := J } 0 0) ∧
      residues hv.order (entries J) = (residues hv.order (keyAt s.unit)).adjugate := by
  obtain ⟨J, hexec, hJ⟩ := exec_adj_of_validKey hv
  refine ⟨J, hexec, ?_⟩
  rw [← residues_keyCofactor, residues_eq_iff]
  intro r c hr hc
  rw [entries, hJ, if_pos ⟨hr, hc⟩, Int.emod_emod]

/-- Settles O39: `A * adjugate A` and `adjugate A * A` are the determinant times the identity. -/
theorem adjugateTimesKeyIsTheDeterminant : Obligations.AdjugateTimesKeyIsTheDeterminant := by
  intro s t n hv ht r c hr hc
  obtain ⟨J, hexec, hJ⟩ := exec_adj_writes_adjugate hv
  cases hexec.symm.trans ht
  have hright : residues hv.order (entryProduct n (keyAt s.unit) (entries J)) =
      residues hv.order (diagonalArray (keyDet n s.unit)) := by
    rw [residues_entryProduct, hJ, Matrix.mul_adjugate, det_residues, residues_diagonalArray]
  have hleft : residues hv.order (entryProduct n (entries J) (keyAt s.unit)) =
      residues hv.order (diagonalArray (keyDet n s.unit)) := by
    rw [residues_entryProduct, hJ, Matrix.adjugate_mul, det_residues, residues_diagonalArray]
  exact ⟨(residues_eq_iff _).1 hright r c hr hc, (residues_eq_iff _).1 hleft r c hr hc⟩

/-! ## The inverse (R176 (a), (b)) -/

section
variable {s : State} {n : Nat} (hv : ValidKey n s.unit) (hD : Int.gcd (keyDet n s.unit) 26 = 1)
include hD

theorem isUnit_det_residues : IsUnit (residues hv.order (keyAt s.unit)).det := by
  rw [det_residues]
  exact isUnit_intCast_26.2 hD

/-- KINV writes the inverse of the key modulo 26, in entries a key may have. -/
theorem exec_kinv_writes_inverse :
    ∃ V, exec .kinv s = .next (reply s { s.unit with inv := V } 0 0) ∧
      (∀ r c, entries V r c ≤ 25) ∧
      residues hv.order (entries V) = (residues hv.order (keyAt s.unit))⁻¹ := by
  obtain ⟨x, -, -, hx, V, hexec, hV⟩ := exec_kinv_of_coprime hv hD
  refine ⟨V, hexec, fun r c => ?_, ?_⟩
  · rw [entries, hV]
    split <;> omega
  · have hscaled : residues hv.order (entries V) =
        (x : ZMod 26) • (residues hv.order (keyAt s.unit)).adjugate := by
      rw [← residues_keyCofactor]
      ext i j
      simp [entries, hV, inArray, intCast_emod_26]
    have hone : (x : ZMod 26) * keyDet n s.unit = 1 := by
      have h := (intCast_eq_iff_emod_26 (b := 1)).2 hx
      rw [mul_comm]
      exact_mod_cast h
    refine (Matrix.inv_eq_right_inv ?_).symm
    rw [hscaled, Matrix.mul_smul, Matrix.mul_adjugate, det_residues, smul_smul, hone, one_smul]

end

/-- Settles O41: `A * A⁻¹` and `A⁻¹ * A` are the identity where the determinant is a unit. -/
theorem kinvWritesTheInverseModulo26 : Obligations.KinvWritesTheInverseModulo26 := by
  intro s n hv hD
  obtain ⟨V, hexec, -, hV⟩ := exec_kinv_writes_inverse hv hD
  have hunit := isUnit_det_residues hv hD
  have hone : residues hv.order (diagonalArray 1) = 1 := by
    rw [residues_diagonalArray, Int.cast_one, one_smul]
  have hright : residues hv.order (entryProduct n (keyAt s.unit) (entries V)) =
      residues hv.order (diagonalArray 1) := by
    rw [residues_entryProduct, hV, Matrix.mul_nonsing_inv _ hunit, hone]
  have hleft : residues hv.order (entryProduct n (entries V) (keyAt s.unit)) =
      residues hv.order (diagonalArray 1) := by
    rw [residues_entryProduct, hV, Matrix.nonsing_inv_mul _ hunit, hone]
  refine ⟨V, hexec, fun r c hr hc => ?_⟩
  have hdiag : diagonalArray 1 r c % 26 = if r = c then 1 else 0 := by
    unfold diagonalArray
    split <;> rfl
  rw [← hdiag]
  exact ⟨(residues_eq_iff _).1 hright r c hr hc, (residues_eq_iff _).1 hleft r c hr hc⟩

/-- Settles O42: modulo 26 the second result is `A⁻¹⁻¹`, which is `A`; and two entries of at most
25 that are equal modulo 26 are equal. -/
theorem kinvIsAnInvolution : Obligations.KinvIsAnInvolution := by
  intro s t s' n hv hD ht hkdim hkey
  obtain ⟨V, hexec, hV25, hV⟩ := exec_kinv_writes_inverse hv hD
  cases hexec.symm.trans ht
  have hunit := isUnit_det_residues hv hD
  have hkey' : keyAt s'.unit = entries V := congrArg entries hkey
  have hv' : ValidKey n s'.unit := by
    obtain ⟨hn, hrows, hcols, -⟩ := hv
    exact ⟨hn, hkdim ▸ hrows, hkdim ▸ hcols, fun r c _ _ => hkey' ▸ hV25 r c⟩
  -- The determinant of an inverse matrix is a unit.
  have hD' : Int.gcd (keyDet n s'.unit) 26 = 1 := by
    rw [← isUnit_intCast_26, ← det_residues hv'.order, hkey', hV]
    exact Matrix.isUnit_nonsing_inv_det _ hunit
  obtain ⟨W, hexec', hW25, hW⟩ := exec_kinv_writes_inverse hv' hD'
  refine ⟨hv', hD', W, hexec', fun r c hr hc => ?_⟩
  have hback : residues hv.order (entries W) = residues hv.order (keyAt s.unit) := by
    rw [hW, hkey', hV, Matrix.nonsing_inv_nonsing_inv _ hunit]
  have hmod := (residues_eq_iff _).1 hback r c hr hc
  have hK := keyAt_range hv hr hc
  have hW' := hW25 r c
  rw [keyAt] at hmod hK
  rw [entries] at hmod hW'
  exact BitVec.eq_of_toNat_eq (by omega)

end Sys2Proof.Machine
end

section
/-! PROOFS, family 44_cipher.md: ENC (O43), DEC (O44) and the round trip (O46). Each block of a text is
read as a vector over the integers modulo 26 (`block`), where multiplying the blocks (R193, R194) is
Mathlib's matrix-vector product. ENC multiplies by the key and DEC by its inverse. -/

namespace Sys2Proof.Machine

/-! ## Blocks as vectors modulo 26 (R193, R194) -/

section
open Matrix

variable {n : Nat} (hn : n = 2 ∨ n = 3) {M M' : Fin 3 → Fin 3 → Int} {P P' : Nat → Int} {a L : Nat}

/-- Block `q` of a text, modulo 26. -/
def block (n : Nat) (P : Nat → Int) (q : Nat) (j : Fin n) : ZMod 26 := P (q * n + j)

/-- `blockProductAt` multiplies every block by the matrix. -/
theorem block_blockProductAt (q : Nat) :
    block n (blockProductAt n M P) q = residues hn M *ᵥ block n P q := by
  ext i
  have hdiv : (q * n + i) / n = q := by
    rw [Nat.mul_comm, Nat.mul_add_div i.pos, Nat.div_eq_of_lt i.isLt, Nat.add_zero]
  have hmod : (q * n + i) % n = i := by
    rw [Nat.mul_add_mod_self_right, Nat.mod_eq_of_lt i.isLt]
  have hrow : Fin.ofNat 3 i = inArray hn i := Fin.ext (Nat.mod_eq_of_lt (by omega))
  rw [block, blockProductAt, hdiv, hmod, hrow, intCast_emod_26]
  rcases hn with rfl | rfl
  · simp [mulVec, dotProduct, block, inArray]
  · simp [mulVec, dotProduct, block, inArray, Fin.sum_univ_three]

/-- The block of a position below a multiple of the order lies wholly below it. -/
theorem block_congr (hL : n ∣ L) (ha : a < L) (h : ∀ k < L, P k = P' k) :
    block n P (a / n) = block n P' (a / n) := by
  ext j
  have hlt : a / n * n + j < L := calc
    a / n * n + j < (a / n + 1) * n := by rw [Nat.succ_mul]; omega
    _ ≤ L := by
      obtain ⟨k, rfl⟩ := hL
      rw [Nat.mul_comm n k]
      exact Nat.mul_le_mul_right n (Nat.div_lt_of_lt_mul ha)
  rw [block, h _ hlt, block]

include hn

/-- Position `a` lies in block `a / n`. -/
theorem emod_eq_of_block_eq (h : block n P (a / n) = block n P' (a / n)) :
    P a % 26 = P' a % 26 := by
  have hat := congrFun h ⟨a % n, Nat.mod_lt a (by omega)⟩
  simp only [block, Nat.div_add_mod'] at hat
  exact intCast_eq_iff_emod_26.1 hat

/-- Only the matrix inside the order and the text below its length matter. -/
theorem blockProductAt_congr (hM : residues hn M = residues hn M') (hL : n ∣ L) (ha : a < L)
    (hP : ∀ k < L, P k = P' k) : blockProductAt n M P a = blockProductAt n M' P' a := by
  have h : block n (blockProductAt n M P) (a / n) = block n (blockProductAt n M' P') (a / n) := by
    rw [block_blockProductAt hn, block_blockProductAt hn, hM, block_congr hL ha hP]
  have hmod := emod_eq_of_block_eq hn h
  rwa [blockProductAt, blockProductAt, Int.emod_emod, Int.emod_emod] at hmod

/-- Multiplying the blocks by a matrix and then by its inverse gives the text back modulo 26. -/
theorem blockProductAt_inverse (hdet : IsUnit (residues hn M).det)
    (hM' : residues hn M' = (residues hn M)⁻¹) (P : Nat → Int) (a : Nat) :
    blockProductAt n M' (blockProductAt n M P) a = P a % 26 := by
  have h : block n (blockProductAt n M' (blockProductAt n M P)) (a / n) = block n P (a / n) := by
    rw [block_blockProductAt hn, block_blockProductAt hn, hM', mulVec_mulVec,
      nonsing_inv_mul _ hdet, one_mulVec]
  have hmod := emod_eq_of_block_eq hn h
  rwa [blockProductAt, Int.emod_emod] at hmod

end

/-! ## What ENC and DEC write (R196, R197) -/

/-- The answer of a command that wrote the values `T` as its result text. -/
def textAnswer (s : State) (T : List Int) : Result :=
  .next (reply s (textUnit s.unit T) 0 (BitVec.ofNat 32 T.length))

section
variable {s : State} {n : Order}

/-- A command that writes the transform of `S` by `M` leaves the products of the blocks in `OUT`. The
matrix may be replaced by one with the same residues, and the text by one with the same values. -/
theorem exec_writes_blockProducts {i : Instr} {M : Mat3 Int} {S : List Int}
    {X : Fin 3 → Fin 3 → Int} {P : Nat → Int}
    (hexec : exec i s = textAnswer s (transform M S n))
    (hwf : Memory.wf s.unit.out = true) (hS : orderNat n ∣ S.length)
    (hcap : S.length ≤ Config.outCap)
    (hX : residues (orderNat_eq n) (matGet M) = residues (orderNat_eq n) X)
    (hP : ∀ k < S.length, S.getD k 0 = P k) :
    ∃ m l d, exec i s = .next (reply s { s.unit with out := m, outLen := l } 0 d) ∧
      l.toNat = S.length ∧ d.toNat = l.toNat ∧
      (∀ a, a < l.toNat → ((Memory.read m a).toNat : Int) =
        0x41 + blockProductAt (orderNat n) X P a) ∧
      ∀ a, l.toNat ≤ a → Memory.read m a = Memory.read s.unit.out a := by
  obtain ⟨hlen, hval⟩ := transform_spec M n (S.length / orderNat n) S (Nat.div_mul_cancel hS).symm
  obtain ⟨hl, hread, habove⟩ := textUnit_spec hwf (transform_range M S n) (hlen.trans_le hcap)
  have hcap' : Config.outCap = 258 := rfl
  refine ⟨_, _, _, hexec, hl.trans hlen, ?_, fun a ha => ?_, fun a ha => habove a (hl.ge.trans ha)⟩
  · rw [BitVec.toNat_ofNat, Nat.mod_eq_of_lt (by omega)]
    exact hl.symm
  · have haS : a < S.length := ha.trans_eq (hl.trans hlen)
    refine (hread a (haS.trans_eq hlen.symm)).trans ?_
    rw [hval a haS, blockProductAt_congr _ hX hS haS hP]

/-- ENC on a valid key and a legal message. -/
theorem exec_enc_of_legal (hk : keycheck s.unit = .ok n)
    (hl : s.unit.msgLen.toNat ≤ Config.msgCap) (hb : ∀ b ∈ messageBytes s.unit, LegalByte b) :
    exec .enc s =
      textAnswer s (transform (keyMatrix s.unit) (pad (messageLetters s.unit) n) n) := by
  have hv := (keycheck_ok_iff _ _).1 hk
  obtain ⟨c, hc, -⟩ | ⟨m, -, hm, ⟨hgt, -⟩ | ⟨-, ⟨b, hmem, hbad⟩, -⟩ | ⟨-, -, h⟩⟩ := exec_enc_cases s
  · exact absurd hv (not_validKey_of_keyError hc _)
  · omega
  · exact absurd (hb b hmem) hbad
  · cases hk.symm.trans hm
    exact h

/-- Reduced entries fit the bytes of a matrix register. -/
theorem residues_resultMatrix_scaleMatrix (x : Nat) (J : Mat3 Int) :
    residues (orderNat_eq n) (matGet (scaleMatrix x J)) =
      residues (orderNat_eq n) (entries (resultMatrix n (scaleMatrix x J))) := by
  rw [residues_eq_iff]
  intro r c hr hc
  rw [entries, matGet_resultMatrix, if_pos ⟨hr, hc⟩, scaleMatrix, get_matOf, emod_q,
    byte_ofInt_toNat (by omega) (by omega)]

/-- DEC on a valid invertible key and a legal message of whole blocks multiplies by the matrix that
KINV writes: there is only one inverse of the determinant for the two to find. -/
theorem exec_dec_of_legal (hk : keycheck s.unit = .ok n)
    (hD : Int.gcd (keyDet (orderNat n) s.unit) 26 = 1)
    (hl : s.unit.msgLen.toNat ≤ Config.msgCap) (hb : ∀ b ∈ messageBytes s.unit, LegalByte b)
    (hdvd : orderNat n ∣ (messageLetters s.unit).length) :
    ∃ M V,
      exec .dec s = textAnswer s (transform M (messageLetters s.unit) n) ∧
      exec .kinv s = .next (reply s { s.unit with inv := V } 0 0) ∧
      residues (orderNat_eq n) (matGet M) = residues (orderNat_eq n) (entries V) := by
  have hv := (keycheck_ok_iff _ _).1 hk
  obtain ⟨hne, -⟩ | ⟨-, y, -, hy25, hy, hkinv⟩ := exec_kinv_cases hk
  · exact absurd hD hne
  obtain ⟨c, hc, -⟩ | ⟨m, -, hm, ⟨hgt, -⟩ | ⟨-, ⟨b, hmem, hbad⟩, -⟩ |
    ⟨-, -, ⟨hnot, -⟩ | ⟨-, hne, -⟩ | ⟨-, -, x, -, hx25, hx, -, hdec⟩⟩⟩ := exec_dec_cases s
  · exact absurd hv (not_validKey_of_keyError hc _)
  · omega
  · exact absurd (hb b hmem) hbad
  · cases hk.symm.trans hm
    exact absurd hdvd hnot
  · cases hk.symm.trans hm
    exact absurd hD hne
  · cases hk.symm.trans hm
    obtain rfl : x = y := inverse_unique (m := 26) (by omega) (by omega) hx hy
    exact ⟨_, _, hdec, hkinv, residues_resultMatrix_scaleMatrix x _⟩

end

/-- Inside the padded length the value that an absent position is given plays no part. -/
theorem getD_zero_pad (S : List Int) (n : Order) {k : Nat} (h : k < (pad S n).length) :
    (pad S n).getD k 0 = paddedAt S k := by
  rw [← getD_pad S n, List.getD_eq_getElem _ _ h, List.getD_eq_getElem _ _ h]

/-- Settles O43: the text is the padded message, the matrix the key. -/
theorem encWritesTheCiphertext : Obligations.EncWritesTheCiphertext := by
  intro s n hv hl hwf hb
  obtain ⟨m, rfl, hk⟩ := keycheck_of_validKey hv
  have hlen := length_pad (messageLetters s.unit) m
  rw [← hlen]
  refine exec_writes_blockProducts (exec_enc_of_legal hk hl hb) hwf
    (hlen ▸ dvd_paddedLength _ _) (hlen ▸ length_encrypted s.unit m ▸ length_encrypted_le m hl)
    (congrArg _ ?_) fun k => getD_zero_pad _ m
  ext r c
  exact matGet_keyMatrix s.unit r c

/-- Settles O44: the text is the message, and the matrix has the residues of KINV's result. -/
theorem decWritesThePlaintext : Obligations.DecWritesThePlaintext := by
  intro s n hv hD hl hwf hb hdvd
  obtain ⟨m, rfl, hk⟩ := keycheck_of_validKey hv
  obtain ⟨M, V, hdec, hkinv, hMV⟩ := exec_dec_of_legal hk hD hl hb hdvd
  have hcap : (messageLetters s.unit).length ≤ Config.outCap :=
    (length_messageLetters_le _).trans (hl.trans (Nat.le_add_right _ _))
  obtain ⟨out, l, d, hexec, hlen, hdata, hread, habove⟩ :=
    exec_writes_blockProducts hdec hwf hdvd hcap hMV fun _ _ => rfl
  exact ⟨out, l, d, V, hexec, hkinv, hlen, hdata, hread, habove⟩

/-! ## The round trip (R198 (b)) -/

theorem blockProductAt_range (n : Nat) (M : Fin 3 → Fin 3 → Int) (P : Nat → Int) (a : Nat) :
    0 ≤ blockProductAt n M P a ∧ blockProductAt n M P a ≤ 25 :=
  ⟨Int.emod_nonneg _ (by decide), Int.le_of_lt_add_one (Int.emod_lt_of_pos _ (by decide))⟩

theorem paddedAt_range (u : UnitState) (k : Nat) :
    0 ≤ paddedAt (messageLetters u) k ∧ paddedAt (messageLetters u) k ≤ 25 := by
  rcases Nat.lt_or_ge k (messageLetters u).length with h | h
  · rw [paddedAt, List.getD_eq_getElem _ _ h]
    exact messageLetters_range (List.getElem_mem h)
  · rw [paddedAt, List.getD_eq_default _ _ h]
    decide

theorem letterOf_of_toNat {b : Byte} {v : Int} (h : (b.toNat : Int) = 0x41 + v)
    (hv : 0 ≤ v ∧ v ≤ 25) : letterOf b = some v := by
  rw [letterOf, if_pos (by omega), h, add_sub_cancel_left]

section
variable {u : UnitState} {C : Nat → Int} (hC : ∀ a, 0 ≤ C a ∧ C a ≤ 25)
  (hread : ∀ a < u.msgLen.toNat, ((Memory.read u.msg a).toNat : Int) = 0x41 + C a)
include hC hread

/-- A message of upper-case letters, such as a result text, is legal. -/
theorem legalByte_of_letters : ∀ b ∈ messageBytes u, LegalByte b := by
  intro b hb
  obtain ⟨a, ha, rfl⟩ := List.mem_map.1 hb
  exact .inr (by rw [letterOf_of_toNat (hread a (List.mem_range.1 ha)) (hC a)]; rfl)

/-- Preprocessing keeps every letter of a message of upper-case letters. -/
theorem messageLetters_of_letters : messageLetters u = (List.range u.msgLen.toNat).map C := by
  rw [messageLetters, messageBytes, List.filterMap_map, ← List.filterMap_eq_map]
  exact List.filterMap_congr fun a ha =>
    letterOf_of_toNat (hread a (List.mem_range.1 ha)) (hC a)

end

theorem ValidKey.congr {n : Nat} {u u' : UnitState} (hv : ValidKey n u) (hd : u'.kdim = u.kdim)
    (hk : u'.k = u.k) : ValidKey n u' := by
  simpa only [ValidKey, keyAt, hd, hk] using hv

theorem keyDet_congr {u u' : UnitState} (hk : u'.k = u.k) (n : Nat) : keyDet n u' = keyDet n u := by
  simp only [keyDet, keyAt, hk]

/-- DEC undoes a multiplication of blocks by the key. -/
theorem exec_dec_of_blockProducts {s : State} {n : Nat} {P : Nat → Int} (hv : ValidKey n s.unit)
    (hD : Int.gcd (keyDet n s.unit) 26 = 1) (hl : s.unit.msgLen.toNat ≤ Config.msgCap)
    (hwf : Memory.wf s.unit.out = true) (hdvd : n ∣ s.unit.msgLen.toNat)
    (hP : ∀ a, 0 ≤ P a ∧ P a ≤ 25)
    (hmsg : ∀ a < s.unit.msgLen.toNat, ((Memory.read s.unit.msg a).toNat : Int) =
      0x41 + blockProductAt n (keyAt s.unit) P a) :
    ∃ m, exec .dec s = .next (reply s { s.unit with out := m, outLen := s.unit.msgLen } 0
        (BitVec.ofNat 32 s.unit.msgLen.toNat)) ∧
      ∀ a < s.unit.msgLen.toNat, ((Memory.read m a).toNat : Int) = 0x41 + P a := by
  have hrange := blockProductAt_range n (keyAt s.unit) P
  have hletters := messageLetters_of_letters hrange hmsg
  have hcount : (messageLetters s.unit).length = s.unit.msgLen.toNat := by
    rw [hletters, List.length_map, List.length_range]
  obtain ⟨m, l, d, V, hdec, hkinv, hlen, hd, hread, -⟩ := decWritesThePlaintext s n hv hD hl hwf
    (legalByte_of_letters hrange hmsg) (hcount ▸ hdvd)
  obtain ⟨V', hkinv', -, hinv⟩ := exec_kinv_writes_inverse hv hD
  cases hkinv'.symm.trans hkinv
  obtain rfl : l = s.unit.msgLen := BitVec.eq_of_toNat_eq (hlen.trans hcount)
  obtain rfl : d = BitVec.ofNat 32 s.unit.msgLen.toNat := by
    rw [← hd, BitVec.ofNat_toNat, BitVec.setWidth_eq]
  refine ⟨m, hdec, fun a ha => ?_⟩
  have htext : ∀ k < s.unit.msgLen.toNat,
      (messageLetters s.unit).getD k 0 = blockProductAt n (keyAt s.unit) P k := by
    intro k hk
    rw [List.getD_eq_getElem _ _ (hk.trans_eq hcount.symm)]
    simp [hletters]
  calc ((Memory.read m a).toNat : Int)
      = 0x41 + blockProductAt n (entries V) (fun k => (messageLetters s.unit).getD k 0) a :=
        hread a ha
    _ = 0x41 + blockProductAt n (entries V) (blockProductAt n (keyAt s.unit) P) a := by
        rw [blockProductAt_congr hv.order rfl hdvd ha htext]
    _ = 0x41 + P a := by
        rw [blockProductAt_inverse hv.order (isUnit_det_residues hv hD) hinv,
          Int.emod_eq_of_lt (hP a).1 (by linarith [(hP a).2])]

/-- Settles O46: the second machine's message is the first one's padded letters, block by block
multiplied by the key that both hold. -/
theorem decryptingTheCiphertextGivesThePaddedMessage :
    Obligations.DecryptingTheCiphertextGivesThePaddedMessage := by
  intro s t s' n hv hD hl hwf hb ht hkdim hkey hwf' hlen' hl' hmsg
  obtain ⟨m, l, d, henc, hl_eq, -, hcipher, -⟩ := encWritesTheCiphertext s n hv hl hwf hb
  cases henc.symm.trans ht
  obtain rfl : s'.unit.msgLen = l := hlen'
  have hK : keyAt s'.unit = keyAt s.unit := congrArg entries hkey
  obtain ⟨m', hdec, hread⟩ := exec_dec_of_blockProducts (hv.congr hkdim hkey)
    (keyDet_congr hkey n ▸ hD) hl' hwf' (hl_eq ▸ dvd_paddedLength _ _) (paddedAt_range s.unit)
    fun a ha => by rw [hmsg a ha, hK]; exact hcipher a ha
  exact ⟨m', hdec, hl_eq, hread⟩

end Sys2Proof.Machine
end

section
/-! PROOFS, family 60_exceptions.md: a step always goes on (O14), what an error leaves unchanged (O16),
and the priority of the errors of ENC and DEC (O45). -/

namespace Sys2Proof.Machine

/-! ## Completion and the one response (R220, R230, 70_reset_and_hazards.md R255, R257) -/

/-- Settles O14: with an event waiting, `step_event` gives the next state. -/
theorem everyStepCompletes : Obligations.EveryStepCompletes := by
  intro s h
  cases hin : s.inputs with
  | nil => exact ⟨s, step_idle hin⟩
  | cons e rest =>
    obtain ⟨t, -, hstep, -⟩ := step_event h hin
    exact ⟨t, hstep⟩

/-- Settles O16: of the answers of `exec` (`exec_answers`) a success has code 0, and an error has data 0
and the unit as it was. -/
theorem oneResponseAndNoChangeOnError : Obligations.OneResponseAndNoChangeOnError := by
  intro i s t h
  cases exec_answers i s with
  | error c _ h8 _ he =>
    cases he.symm.trans h
    exact ⟨c, 0, rfl, h8, fun _ => ⟨rfl, rfl⟩⟩
  | ok u d he _ =>
    cases he.symm.trans h
    exact ⟨0, d, rfl, Nat.zero_le _, fun h0 => absurd rfl h0⟩
  | stop he _ _ _ => cases he.symm.trans h

/-! ## The priority of the errors of ENC and DEC (R223, 44_cipher.md R196, R197) -/

section
variable {s : State} {n : Nat} (hv : ValidKey n s.unit) (hl : s.unit.msgLen.toNat ≤ Config.msgCap)
include hv hl

/-- ENC and DEC preprocess the message before anything that follows the key check. -/
theorem exec_of_illegal {i : Instr} (hi : i = .enc ∨ i = .dec)
    (hb : ∃ b ∈ messageBytes s.unit, ¬ LegalByte b) : exec i s = .next (replyError s 5) := by
  obtain ⟨m, -, hk⟩ := keycheck_of_validKey hv
  have hexec : ∃ f : Order → List Int → Result, exec i s = orRaise (keycheck s.unit) s fun m =>
      orOutside (message s.unit) fun bytes => orRaise (prep bytes) s (f m) := by
    rcases hi with rfl | rfl <;> exact ⟨_, rfl⟩
  obtain ⟨f, hf⟩ := hexec
  rw [hf, hk, orRaise_ok, message_eq hl, orOutside_some, prep_illegal hb]
  rfl

/-- On a legal message DEC tests the length first, then the determinant. -/
theorem exec_dec_errors_of_legal (hb : ∀ b ∈ messageBytes s.unit, LegalByte b) :
    (¬ n ∣ (messageLetters s.unit).length → exec .dec s = .next (replyError s 6)) ∧
    (n ∣ (messageLetters s.unit).length → Int.gcd (keyDet n s.unit) 26 ≠ 1 →
      exec .dec s = .next (replyError s 3)) := by
  obtain ⟨c, hc, -⟩ | ⟨m, hm, -, ⟨hgt, -⟩ | ⟨-, ⟨b, hmem, hbad⟩, -⟩ | ⟨-, -, htests⟩⟩ :=
    exec_dec_cases s
  · exact absurd hv (not_validKey_of_keyError hc n)
  · exact absurd hl (Nat.not_le.2 hgt)
  · exact absurd (hb b hmem) hbad
  · obtain rfl := validKey_unique hv hm
    obtain ⟨hnot, h⟩ | ⟨hdvd, -, h⟩ | ⟨hdvd, hcop, -⟩ := htests
    · exact ⟨fun _ => h, fun hdvd => absurd hdvd hnot⟩
    · exact ⟨fun hnot => absurd hdvd hnot, fun _ _ => h⟩
    · exact ⟨fun hnot => absurd hdvd hnot, fun _ hne => absurd hcop hne⟩

end

/-- Settles O45: the first test that fails gives the answer. -/
theorem cipherErrorsComeInOrder : Obligations.CipherErrorsComeInOrder := fun _ _ hv hl =>
  ⟨fun hb => ⟨exec_of_illegal hv hl (.inl rfl) hb, exec_of_illegal hv hl (.inr rfl) hb⟩,
    exec_dec_errors_of_legal hv hl⟩

end Sys2Proof.Machine
end

section
/-! PROOFS, family 70_reset_and_hazards.md: the host's reset (O9). -/

namespace Sys2Proof.Machine

/-- The whole state after a reset: the unit's items of R31's table, the host's side as it was (R250). -/
theorem hostReset_eq (s : State) :
    hostReset s = { unit := UnitState.reset, inputs := s.inputs, responses := s.responses } := rfl

/-- Settles O9: the step takes the event (`step_reset`), and the reset keeps nothing of the unit. -/
theorem resetEventResetsTheUnit : Obligations.ResetEventResetsTheUnit := fun s rest h => by
  rw [step_reset h, hostReset_eq]

end Sys2Proof.Machine
end

section
/-! PROOFS, family other: the words printed in 30_encoding.md and in table T1 of 95_test_vectors.md (O3). -/

namespace Sys2Proof

/-- Settles O3: the ten accepted words are the encodings of their commands (`decode_eq_ok_iff`); of the
three others, one has an index 3, one a reserved bit of format D set, one an opcode outside the map. -/
theorem printedWordsDecode : Obligations.PrintedWordsDecode := by
  have accepted {w : Word} {i : Instr} (hwf : WellFormed i = true) (hw : encode i = w) :
      decode w = .ok i := decode_eq_ok_iff.2 ⟨hwf, hw⟩
  refine ⟨accepted rfl rfl, accepted rfl rfl, accepted rfl rfl, accepted rfl rfl, accepted rfl rfl,
    accepted rfl rfl, accepted rfl rfl, accepted rfl rfl, accepted rfl rfl, accepted rfl rfl,
    ?illegalIndex, ?reservedBit, ?illegalOpcode⟩
  case illegalIndex => decide
  case reservedBit => decide
  case illegalOpcode => decide

end Sys2Proof
end
